-- ==== Sys2Proof/Word.lean ====
section
/-! DEFINITION. The bit-vector types of the block: a buffer element, an assembled 16-bit field and a 3-bit code
(00_scope.md rules R5, R6 and R8). Bit 0 is the least significant bit throughout (R6). -/

namespace Sys2Proof

/-- One element of the input buffer, the spec's `u8` (`BYTE = 8`, rule R5). -/
abbrev Byte := BitVec 8

/-- An immediate, displacement or direct address before it is read as a signed number, the spec's `u16`
(`WORD = 16`, rule R5). -/
abbrev Word := BitVec 16

/-- A register code or an effective-address table index, the spec's `u3` (rules R20 and R67). -/
abbrev Code := BitVec 3

end Sys2Proof
end

