-- ==== Sys2Proof/Config.lean ====
section
/-! DEFINITION. The implementation parameters of 00_scope.md rule R5: the window size, and the two OPEN
diagnostic texts, which the model takes as an argument (92_eei_decisions.md D10 and D11). The buffer length `N`
is the size of the buffer that `State` holds; it has no bound (D13). -/

namespace Sys2Proof

/-- `WIN`: the most bytes DEC is shown at once (rule R5). -/
def Config.windowBytes : Nat := 6

/-- The OPEN parameters `UNREC_TEXT` and `TRUNC_TEXT` (rule R5, 45_formatter.md rules R212 and R213). The spec
fixes no text, so every definition that renders a diagnostic takes one of these, and a statement about text
quantifies over them. -/
structure DiagTexts where
  /-- `UNREC_TEXT(b)`. -/
  unrecText : Byte → String
  /-- `TRUNC_TEXT(at, b0, have)`. -/
  truncText : Nat → Byte → Nat → String

end Sys2Proof
end

