-- ==== Sys2Proof/Syntax.lean ====
section
/-! DEFINITION. The instruction forms: one constructor per row of spec/opcode_table.json (30_encoding.md rule R77).
A constructor's arguments are the row's field letters. `d` and `w` are single bits (`true` is 1); `reg` and `rm` are
3-bit codes; `x` is the ignored `b1[5:3]` of shape IM (kept, so that no bit of an encoding is lost); 16-bit fields
are assembled (low byte first). Numbers are still raw bits here: the meanings read them as signed. -/

namespace Sys2Proof

inductive Instr where
  /-- `MOV_RM_REG_RR`, `100010dw 11rrrmmm` (R121). -/
  | movRmRegRr (d w : Bool) (reg rm : Code)
  /-- `MOV_RM_MEM0`, `100010dw 00rrrmmm`, `mmm != 110` (R122). -/
  | movRmMem0 (d w : Bool) (reg rm : Code)
  /-- `MOV_RM_DIRECT`, `100010dw 00rrr110 LLLLLLLL HHHHHHHH` (R123). -/
  | movRmDirect (d w : Bool) (reg : Code) (addr : Word)
  /-- `MOV_RM_MEM8`, `100010dw 01rrrmmm DDDDDDDD` (R124). -/
  | movRmMem8 (d w : Bool) (reg rm : Code) (disp : Byte)
  /-- `MOV_RM_MEM16`, `100010dw 10rrrmmm LLLLLLLL HHHHHHHH` (R125). -/
  | movRmMem16 (d w : Bool) (reg rm : Code) (disp : Word)
  /-- `MOV_IMM_REG8`, `10110rrr IIIIIIII` (R141). -/
  | movImmReg8 (reg : Code) (imm : Byte)
  /-- `MOV_IMM_REG16`, `10111rrr IIIIIIII JJJJJJJJ` (R142). -/
  | movImmReg16 (reg : Code) (imm : Word)
  /-- `MOV_IMM_MEM_RR8`, `11000110 11xxxmmm IIIIIIII` (R161). -/
  | movImmMemRr8 (x rm : Code) (imm : Byte)
  /-- `MOV_IMM_MEM_RR16`, `11000111 11xxxmmm IIIIIIII JJJJJJJJ` (R161). -/
  | movImmMemRr16 (x rm : Code) (imm : Word)
  /-- `MOV_IMM_MEM0_8`, `11000110 00xxxmmm IIIIIIII`, `mmm != 110` (R162). -/
  | movImmMem0_8 (x rm : Code) (imm : Byte)
  /-- `MOV_IMM_MEM0_16`, `11000111 00xxxmmm IIIIIIII JJJJJJJJ`, `mmm != 110` (R162). -/
  | movImmMem0_16 (x rm : Code) (imm : Word)
  /-- `MOV_IMM_DIRECT8`, `11000110 00xxx110 LLLLLLLL HHHHHHHH IIIIIIII` (R163). -/
  | movImmDirect8 (x : Code) (addr : Word) (imm : Byte)
  /-- `MOV_IMM_DIRECT16`, `11000111 00xxx110 LLLLLLLL HHHHHHHH IIIIIIII JJJJJJJJ` (R163). -/
  | movImmDirect16 (x : Code) (addr : Word) (imm : Word)
  /-- `MOV_IMM_MEM8_8`, `11000110 01xxxmmm DDDDDDDD IIIIIIII` (R164). -/
  | movImmMem8_8 (x rm : Code) (disp : Byte) (imm : Byte)
  /-- `MOV_IMM_MEM8_16`, `11000111 01xxxmmm DDDDDDDD IIIIIIII JJJJJJJJ` (R164). -/
  | movImmMem8_16 (x rm : Code) (disp : Byte) (imm : Word)
  /-- `MOV_IMM_MEM16_8`, `11000110 10xxxmmm LLLLLLLL HHHHHHHH IIIIIIII` (R165). -/
  | movImmMem16_8 (x rm : Code) (disp : Word) (imm : Byte)
  /-- `MOV_IMM_MEM16_16`, `11000111 10xxxmmm LLLLLLLL HHHHHHHH IIIIIIII JJJJJJJJ` (R165). -/
  | movImmMem16_16 (x rm : Code) (disp : Word) (imm : Word)
  /-- `MOV_ACC_MEM8`, `10100010 LLLLLLLL HHHHHHHH` (R184). -/
  | movAccMem8 (addr : Word)
  /-- `MOV_ACC_MEM16`, `10100011 LLLLLLLL HHHHHHHH` (R185). -/
  | movAccMem16 (addr : Word)
  /-- `MOV_MEM_ACC8`, `10100000 LLLLLLLL HHHHHHHH` (R181). -/
  | movMemAcc8 (addr : Word)
  /-- `MOV_MEM_ACC16`, `10100001 LLLLLLLL HHHHHHHH` (R182). -/
  | movMemAcc16 (addr : Word)
  /-- `UNREC`, `bbbbbbbb`: the catch-all row, a unit of one unrecognized byte (R104). -/
  | unrec (b : Byte)
  deriving DecidableEq, Repr

end Sys2Proof
end

