-- ==== Sys2Proof/WellFormed.lean ====
section
/-! DEFINITION. Which terms of `Instr` are forms the opcode table admits. The field widths are in the types, so two
checks are left: the `exclude` entry of the `MEM0` rows, and that an `UNREC` unit holds none of the 26 recognized
bytes (30_encoding.md rules R73 and R77). -/

namespace Sys2Proof

/-- The 26 first bytes of the opcode map, written from its value ranges (rule R73). -/
def recognizedByte (b : Byte) : Bool :=
  (0x88 ≤ b.toNat && b.toNat ≤ 0x8B) || (0xA0 ≤ b.toNat && b.toNat ≤ 0xA3) ||
    (0xB0 ≤ b.toNat && b.toNat ≤ 0xBF) || (0xC6 ≤ b.toNat && b.toNat ≤ 0xC7)

/-- `exclude` of the `MEM0` rows: `mod = 00, rm = 110` is direct addressing, never this form (rules R68 and R77). -/
def hasBaseIndexForm (rm : Code) : Bool := rm != 0b110#3

/-- The well-formedness check of one instruction form. -/
def Instr.wf : Instr → Bool
  | .movRmRegRr _ _ _ _ => true
  | .movRmMem0 _ _ _ rm => hasBaseIndexForm rm
  | .movRmDirect _ _ _ _ => true
  | .movRmMem8 _ _ _ _ _ => true
  | .movRmMem16 _ _ _ _ _ => true
  | .movImmReg8 _ _ => true
  | .movImmReg16 _ _ => true
  | .movImmMemRr8 _ _ _ => true
  | .movImmMemRr16 _ _ _ => true
  | .movImmMem0_8 _ rm _ => hasBaseIndexForm rm
  | .movImmMem0_16 _ rm _ => hasBaseIndexForm rm
  | .movImmDirect8 _ _ _ => true
  | .movImmDirect16 _ _ _ => true
  | .movImmMem8_8 _ _ _ _ => true
  | .movImmMem8_16 _ _ _ _ => true
  | .movImmMem16_8 _ _ _ _ => true
  | .movImmMem16_16 _ _ _ _ => true
  | .movAccMem8 _ => true
  | .movAccMem16 _ => true
  | .movMemAcc8 _ => true
  | .movMemAcc16 _ => true
  | .unrec b => !recognizedByte b

end Sys2Proof
end

