-- ==== Sys2Proof/Decode.lean ====
section
/-! DEFINITION. From bytes to instruction forms and back: the opcode classifier (40_classifier_and_mux.md rule R101),
the operand field extractor (30_encoding.md rule R66), the unit length `Need` (R72), the decoder, the encoder, and
the opcode table as data (R77). Decoding is total on any list of bytes and rejects by name. -/

namespace Sys2Proof

/-! ## Byte order -/

/-- `le16(lo, hi) = zext_16(lo) + 256 * zext_16(hi)` (R8, R43). -/
def le16 (lo hi : Byte) : Word := lo.setWidth 16 + 256#16 * hi.setWidth 16

/-- The byte of a 16-bit field that stands first in the buffer (R43). -/
def lowByte (v : Word) : Byte := v.extractLsb' 0 8

/-- The byte of a 16-bit field that stands second in the buffer (R43). -/
def highByte (v : Word) : Byte := v.extractLsb' 8 8

/-! ## Opcode classifier -/

/-- The five encoding shapes and `UNREC` (R60, R100). -/
inductive Shape where
  | rm | ir | im | am | ma | unrec
  deriving DecidableEq, Repr

/-- Priority 1: `b0[7:2] = 100010` (R101). -/
def matchesRm (b0 : Byte) : Bool := b0.extractLsb' 2 6 == 0b100010#6

/-- Priority 2: `b0[7:4] = 1011` (R101). -/
def matchesIr (b0 : Byte) : Bool := b0.extractLsb' 4 4 == 0b1011#4

/-- Priority 3: `b0[7:1] = 1100011` (R101). -/
def matchesIm (b0 : Byte) : Bool := b0.extractLsb' 1 7 == 0b1100011#7

/-- Priority 4: `10100010` or `10100011` (R101). -/
def matchesAm (b0 : Byte) : Bool := b0 == 0b10100010#8 || b0 == 0b10100011#8

/-- Priority 5: `10100000` or `10100001` (R101). -/
def matchesMa (b0 : Byte) : Bool := b0 == 0b10100000#8 || b0 == 0b10100001#8

/-- The classifier's tests in the priority order of R101. -/
def classifierTests : List (Shape × (Byte → Bool)) :=
  [(.rm, matchesRm), (.ir, matchesIr), (.im, matchesIm), (.am, matchesAm), (.ma, matchesMa)]

/-- Evaluation of an ordered list of tests: the first match wins, and no match is `UNREC` (R101). -/
def firstMatch : List (Shape × (Byte → Bool)) → Byte → Shape
  | [], _ => .unrec
  | (k, p) :: rest, b0 => if p b0 then k else firstMatch rest b0

/-- `Class(b0)` (R101). -/
def classify (b0 : Byte) : Shape := firstMatch classifierTests b0

/-! ## Operand field extractor -/

/-- `d = b0[1]` (R62). -/
def fieldD (b0 : Byte) : Bool := b0.getLsbD 1

/-- `w = b0[0]` of shapes RM, IM, AM and MA (R62, R64, R65). -/
def fieldW (b0 : Byte) : Bool := b0.getLsbD 0

/-- `w = b0[3]` of shape IR (R63). -/
def fieldWIr (b0 : Byte) : Bool := b0.getLsbD 3

/-- `reg = b0[2:0]` of shape IR (R63). -/
def fieldRegIr (b0 : Byte) : Code := b0.extractLsb' 0 3

/-- `mod = b1[7:6]` (R62, R64). -/
def fieldMod (b1 : Byte) : BitVec 2 := b1.extractLsb' 6 2

/-- `reg = b1[5:3]` of shape RM; the ignored bits of shape IM (R62, R64). -/
def fieldReg (b1 : Byte) : Code := b1.extractLsb' 3 3

/-- `rm = b1[2:0]` (R62, R64). -/
def fieldRm (b1 : Byte) : Code := b1.extractLsb' 0 3

/-- The extractor's outputs; a field that is not valid is `none` (R66). -/
structure Fields where
  d   : Option Bool
  w   : Option Bool
  mod : Option (BitVec 2)
  reg : Option Code
  rm  : Option Code
  deriving DecidableEq, Repr

/-- The operand field extractor: a field is valid only for the shapes that list it, and only when its byte exists in
the window (R66). -/
def extractFields (k : Shape) (win : List Byte) : Fields :=
  let b0 := win[0]?
  let b1 := win[1]?
  match k with
  | .rm => ⟨b0.map fieldD, b0.map fieldW, b1.map fieldMod, b1.map fieldReg, b1.map fieldRm⟩
  | .ir => ⟨none, b0.map fieldWIr, none, b0.map fieldRegIr, none⟩
  | .im => ⟨none, b0.map fieldW, b1.map fieldMod, none, b1.map fieldRm⟩
  | .am => ⟨none, b0.map fieldW, none, none, none⟩
  | .ma => ⟨none, b0.map fieldW, none, none, none⟩
  | .unrec => ⟨none, none, none, none, none⟩

/-! ## Lengths -/

/-- `DispLen(mod, rm)`: the bytes that follow the ModRM byte as a displacement or direct address (R69). -/
def dispLen (mod : BitVec 2) (rm : Code) : Nat :=
  match mod with
  | 0b11#2 => 0
  | 0b00#2 => if rm = 0b110#3 then 2 else 0
  | 0b01#2 => 1
  | 0b10#2 => 2

/-- `Need(b0, b1)`: the byte count of the unit; `b1` is used only for shapes RM and IM (R72). -/
def need (b0 b1 : Byte) : Nat :=
  match classify b0 with
  | .rm => 2 + dispLen (fieldMod b1) (fieldRm b1)
  | .ir => if fieldWIr b0 then 3 else 2
  | .im => 2 + dispLen (fieldMod b1) (fieldRm b1) + (if fieldW b0 then 2 else 1)
  | .am => 3
  | .ma => 3
  | .unrec => 1

/-- The byte count of an instruction form: the opcode table's `length` column (R77). -/
def Instr.length : Instr → Nat
  | .movRmRegRr _ _ _ _ => 2
  | .movRmMem0 _ _ _ _ => 2
  | .movRmDirect _ _ _ _ => 4
  | .movRmMem8 _ _ _ _ _ => 3
  | .movRmMem16 _ _ _ _ _ => 4
  | .movImmReg8 _ _ => 2
  | .movImmReg16 _ _ => 3
  | .movImmMemRr8 _ _ _ => 3
  | .movImmMemRr16 _ _ _ => 4
  | .movImmMem0_8 _ _ _ => 3
  | .movImmMem0_16 _ _ _ => 4
  | .movImmDirect8 _ _ _ => 5
  | .movImmDirect16 _ _ _ => 6
  | .movImmMem8_8 _ _ _ _ => 4
  | .movImmMem8_16 _ _ _ _ => 5
  | .movImmMem16_8 _ _ _ _ => 5
  | .movImmMem16_16 _ _ _ _ => 6
  | .movAccMem8 _ => 3
  | .movAccMem16 _ => 3
  | .movMemAcc8 _ => 3
  | .movMemAcc16 _ => 3
  | .unrec _ => 1

/-- The name of an instruction form's row in the opcode table (R77). -/
def Instr.mnemonic : Instr → String
  | .movRmRegRr _ _ _ _ => "MOV_RM_REG_RR"
  | .movRmMem0 _ _ _ _ => "MOV_RM_MEM0"
  | .movRmDirect _ _ _ _ => "MOV_RM_DIRECT"
  | .movRmMem8 _ _ _ _ _ => "MOV_RM_MEM8"
  | .movRmMem16 _ _ _ _ _ => "MOV_RM_MEM16"
  | .movImmReg8 _ _ => "MOV_IMM_REG8"
  | .movImmReg16 _ _ => "MOV_IMM_REG16"
  | .movImmMemRr8 _ _ _ => "MOV_IMM_MEM_RR8"
  | .movImmMemRr16 _ _ _ => "MOV_IMM_MEM_RR16"
  | .movImmMem0_8 _ _ _ => "MOV_IMM_MEM0_8"
  | .movImmMem0_16 _ _ _ => "MOV_IMM_MEM0_16"
  | .movImmDirect8 _ _ _ => "MOV_IMM_DIRECT8"
  | .movImmDirect16 _ _ _ => "MOV_IMM_DIRECT16"
  | .movImmMem8_8 _ _ _ _ => "MOV_IMM_MEM8_8"
  | .movImmMem8_16 _ _ _ _ => "MOV_IMM_MEM8_16"
  | .movImmMem16_8 _ _ _ _ => "MOV_IMM_MEM16_8"
  | .movImmMem16_16 _ _ _ _ => "MOV_IMM_MEM16_16"
  | .movAccMem8 _ => "MOV_ACC_MEM8"
  | .movAccMem16 _ => "MOV_ACC_MEM16"
  | .movMemAcc8 _ => "MOV_MEM_ACC8"
  | .movMemAcc16 _ => "MOV_MEM_ACC16"
  | .unrec _ => "UNREC"

/-! ## Decoder -/

/-- Why a window gives no instruction form. -/
inductive Reject where
  /-- The window is empty. DEC is never called so (R231). -/
  | noByte
  /-- The classifier matched a shape, but bytes of the encoding are missing (R107). -/
  | truncated (b0 : Byte) (avail : Nat)
  deriving DecidableEq, Repr

/-- The decoder's answer. -/
inductive Decoded where
  | instr (i : Instr)
  | reject (r : Reject)
  deriving DecidableEq, Repr

/-- Takes a one-byte field off the front, if its byte exists. -/
def take8 : List Byte → Option (Byte × List Byte)
  | b :: t => some (b, t)
  | [] => none

/-- Takes a little-endian two-byte field off the front, if both bytes exist (R43). -/
def take16 : List Byte → Option (Word × List Byte)
  | lo :: hi :: t => some (le16 lo hi, t)
  | _ => none

/-- The `MOV_RM_*` rows: `t` is what follows `b0` (R62, R120 to R125). -/
def instrRm (b0 : Byte) (t : List Byte) : Option Instr := do
  let (b1, t) ← take8 t
  let d := fieldD b0
  let w := fieldW b0
  let reg := fieldReg b1
  let rm := fieldRm b1
  match fieldMod b1 with
  | 0b11#2 => some (.movRmRegRr d w reg rm)
  | 0b00#2 =>
    if rm = 0b110#3 then do
      let (a, _) ← take16 t
      some (.movRmDirect d w reg a)
    else some (.movRmMem0 d w reg rm)
  | 0b01#2 => do
    let (disp, _) ← take8 t
    some (.movRmMem8 d w reg rm disp)
  | 0b10#2 => do
    let (disp, _) ← take16 t
    some (.movRmMem16 d w reg rm disp)

/-- The `MOV_IMM_REG*` rows (R63, R141, R142). -/
def instrIr (b0 : Byte) (t : List Byte) : Option Instr :=
  if fieldWIr b0 then do
    let (imm, _) ← take16 t
    some (.movImmReg16 (fieldRegIr b0) imm)
  else do
    let (imm, _) ← take8 t
    some (.movImmReg8 (fieldRegIr b0) imm)

/-- The `MOV_IMM_*8` rows of shape IM, `w = 0`: `t` is what follows the ModRM byte (R64, R161 to R165). -/
def instrIm8 (b1 : Byte) (t : List Byte) : Option Instr :=
  let x := fieldReg b1
  let rm := fieldRm b1
  match fieldMod b1 with
  | 0b11#2 => do
    let (imm, _) ← take8 t
    some (.movImmMemRr8 x rm imm)
  | 0b00#2 =>
    if rm = 0b110#3 then do
      let (a, t) ← take16 t
      let (imm, _) ← take8 t
      some (.movImmDirect8 x a imm)
    else do
      let (imm, _) ← take8 t
      some (.movImmMem0_8 x rm imm)
  | 0b01#2 => do
    let (disp, t) ← take8 t
    let (imm, _) ← take8 t
    some (.movImmMem8_8 x rm disp imm)
  | 0b10#2 => do
    let (disp, t) ← take16 t
    let (imm, _) ← take8 t
    some (.movImmMem16_8 x rm disp imm)

/-- The `MOV_IMM_*16` rows of shape IM, `w = 1`: `t` is what follows the ModRM byte (R64, R161 to R165). -/
def instrIm16 (b1 : Byte) (t : List Byte) : Option Instr :=
  let x := fieldReg b1
  let rm := fieldRm b1
  match fieldMod b1 with
  | 0b11#2 => do
    let (imm, _) ← take16 t
    some (.movImmMemRr16 x rm imm)
  | 0b00#2 =>
    if rm = 0b110#3 then do
      let (a, t) ← take16 t
      let (imm, _) ← take16 t
      some (.movImmDirect16 x a imm)
    else do
      let (imm, _) ← take16 t
      some (.movImmMem0_16 x rm imm)
  | 0b01#2 => do
    let (disp, t) ← take8 t
    let (imm, _) ← take16 t
    some (.movImmMem8_16 x rm disp imm)
  | 0b10#2 => do
    let (disp, t) ← take16 t
    let (imm, _) ← take16 t
    some (.movImmMem16_16 x rm disp imm)

/-- Shape IM: `w = b0[0]` selects the width of the immediate (R64). -/
def instrIm (b0 : Byte) (t : List Byte) : Option Instr := do
  let (b1, t) ← take8 t
  if fieldW b0 then instrIm16 b1 t else instrIm8 b1 t

/-- The `MOV_ACC_MEM*` rows (R65, R184, R185). -/
def instrAm (b0 : Byte) (t : List Byte) : Option Instr := do
  let (a, _) ← take16 t
  some (if fieldW b0 then .movAccMem16 a else .movAccMem8 a)

/-- The `MOV_MEM_ACC*` rows (R65, R181, R182). -/
def instrMa (b0 : Byte) (t : List Byte) : Option Instr := do
  let (a, _) ← take16 t
  some (if fieldW b0 then .movMemAcc16 a else .movMemAcc8 a)

/-- The form that begins with `b0` and goes on with `t`, or none where a byte of it is missing (R105). -/
def instrOf (b0 : Byte) (t : List Byte) : Option Instr :=
  match classify b0 with
  | .rm => instrRm b0 t
  | .ir => instrIr b0 t
  | .im => instrIm b0 t
  | .am => instrAm b0 t
  | .ma => instrMa b0 t
  | .unrec => some (.unrec b0)

/-- The decoder over the unconsumed bytes: it classifies `b0`, selects the row, and rejects by name when bytes are
missing (R105, R107). -/
def decode : List Byte → Decoded
  | [] => .reject .noByte
  | b0 :: t =>
    match instrOf b0 t with
    | some i => .instr i
    | none => .reject (.truncated b0 (t.length + 1))

/-! ## Encoder -/

/-- One bit as a bit vector. -/
def bit (b : Bool) : BitVec 1 := BitVec.ofBool b

/-- The ModRM byte `mod reg rm` (R62). -/
def modRm (mod : BitVec 2) (reg rm : Code) : Byte := mod ++ reg ++ rm

/-- The first byte `100010dw` of shape RM (R62). -/
def opRm (d w : Bool) : Byte := 0b100010#6 ++ bit d ++ bit w

/-- A 16-bit field as it stands in the buffer: the low byte first (R43). -/
def wordBytes (v : Word) : List Byte := [lowByte v, highByte v]

/-- The bytes of an instruction form, from the opcode table's `encoding` column (R77). -/
def encode : Instr → List Byte
  | .movRmRegRr d w reg rm => [opRm d w, modRm 0b11#2 reg rm]
  | .movRmMem0 d w reg rm => [opRm d w, modRm 0b00#2 reg rm]
  | .movRmDirect d w reg addr => [opRm d w, modRm 0b00#2 reg 0b110#3] ++ wordBytes addr
  | .movRmMem8 d w reg rm disp => [opRm d w, modRm 0b01#2 reg rm, disp]
  | .movRmMem16 d w reg rm disp => [opRm d w, modRm 0b10#2 reg rm] ++ wordBytes disp
  | .movImmReg8 reg imm => [0b10110#5 ++ reg, imm]
  | .movImmReg16 reg imm => [0b10111#5 ++ reg] ++ wordBytes imm
  | .movImmMemRr8 x rm imm => [0b11000110#8, modRm 0b11#2 x rm, imm]
  | .movImmMemRr16 x rm imm => [0b11000111#8, modRm 0b11#2 x rm] ++ wordBytes imm
  | .movImmMem0_8 x rm imm => [0b11000110#8, modRm 0b00#2 x rm, imm]
  | .movImmMem0_16 x rm imm => [0b11000111#8, modRm 0b00#2 x rm] ++ wordBytes imm
  | .movImmDirect8 x addr imm => [0b11000110#8, modRm 0b00#2 x 0b110#3] ++ wordBytes addr ++ [imm]
  | .movImmDirect16 x addr imm => [0b11000111#8, modRm 0b00#2 x 0b110#3] ++ wordBytes addr ++ wordBytes imm
  | .movImmMem8_8 x rm disp imm => [0b11000110#8, modRm 0b01#2 x rm, disp, imm]
  | .movImmMem8_16 x rm disp imm => [0b11000111#8, modRm 0b01#2 x rm, disp] ++ wordBytes imm
  | .movImmMem16_8 x rm disp imm => [0b11000110#8, modRm 0b10#2 x rm] ++ wordBytes disp ++ [imm]
  | .movImmMem16_16 x rm disp imm => [0b11000111#8, modRm 0b10#2 x rm] ++ wordBytes disp ++ wordBytes imm
  | .movAccMem8 addr => [0b10100010#8] ++ wordBytes addr
  | .movAccMem16 addr => [0b10100011#8] ++ wordBytes addr
  | .movMemAcc8 addr => [0b10100000#8] ++ wordBytes addr
  | .movMemAcc16 addr => [0b10100001#8] ++ wordBytes addr
  | .unrec b => [b]

/-! ## The opcode table as data -/

/-- A row of spec/opcode_table.json, less its prose columns (R77). `value` is the row's `match`; both are over the
16-bit number `b0 * 256 + b1`. -/
structure TableRow where
  mnemonic : String
  format : Shape
  encoding : String
  value : Word
  mask : Word
  exclude : List (Word × Word)
  priority : Nat
  length : Nat
  deriving DecidableEq, Repr

/-- A row matches when `v & mask = match` and no `exclude` pair matches (R77). -/
def TableRow.hits (r : TableRow) (v : Word) : Bool :=
  v &&& r.mask == r.value && r.exclude.all fun e => v &&& e.2 != e.1

/-- The rows of shape RM. -/
def tableRm : List TableRow :=
  [⟨"MOV_RM_REG_RR", .rm, "100010dw 11rrrmmm", 0x88C0#16, 0xFCC0#16, [], 1, 2⟩,
   ⟨"MOV_RM_MEM0", .rm, "100010dw 00rrrmmm", 0x8800#16, 0xFCC0#16, [(0x0006#16, 0x00C7#16)], 1, 2⟩,
   ⟨"MOV_RM_DIRECT", .rm, "100010dw 00rrr110 LLLLLLLL HHHHHHHH", 0x8806#16, 0xFCC7#16, [], 1, 4⟩,
   ⟨"MOV_RM_MEM8", .rm, "100010dw 01rrrmmm DDDDDDDD", 0x8840#16, 0xFCC0#16, [], 1, 3⟩,
   ⟨"MOV_RM_MEM16", .rm, "100010dw 10rrrmmm LLLLLLLL HHHHHHHH", 0x8880#16, 0xFCC0#16, [], 1, 4⟩]

/-- The rows of shape IR. -/
def tableIr : List TableRow :=
  [⟨"MOV_IMM_REG8", .ir, "10110rrr IIIIIIII", 0xB000#16, 0xF800#16, [], 2, 2⟩,
   ⟨"MOV_IMM_REG16", .ir, "10111rrr IIIIIIII JJJJJJJJ", 0xB800#16, 0xF800#16, [], 2, 3⟩]

/-- The rows of shape IM. -/
def tableIm : List TableRow :=
  [⟨"MOV_IMM_MEM_RR8", .im, "11000110 11xxxmmm IIIIIIII", 0xC6C0#16, 0xFFC0#16, [], 3, 3⟩,
   ⟨"MOV_IMM_MEM_RR16", .im, "11000111 11xxxmmm IIIIIIII JJJJJJJJ", 0xC7C0#16, 0xFFC0#16, [], 3, 4⟩,
   ⟨"MOV_IMM_MEM0_8", .im, "11000110 00xxxmmm IIIIIIII", 0xC600#16, 0xFFC0#16, [(0x0006#16, 0x00C7#16)], 3, 3⟩,
   ⟨"MOV_IMM_MEM0_16", .im, "11000111 00xxxmmm IIIIIIII JJJJJJJJ", 0xC700#16, 0xFFC0#16, [(0x0006#16, 0x00C7#16)], 3, 4⟩,
   ⟨"MOV_IMM_DIRECT8", .im, "11000110 00xxx110 LLLLLLLL HHHHHHHH IIIIIIII", 0xC606#16, 0xFFC7#16, [], 3, 5⟩,
   ⟨"MOV_IMM_DIRECT16", .im, "11000111 00xxx110 LLLLLLLL HHHHHHHH IIIIIIII JJJJJJJJ", 0xC706#16, 0xFFC7#16, [], 3, 6⟩,
   ⟨"MOV_IMM_MEM8_8", .im, "11000110 01xxxmmm DDDDDDDD IIIIIIII", 0xC640#16, 0xFFC0#16, [], 3, 4⟩,
   ⟨"MOV_IMM_MEM8_16", .im, "11000111 01xxxmmm DDDDDDDD IIIIIIII JJJJJJJJ", 0xC740#16, 0xFFC0#16, [], 3, 5⟩,
   ⟨"MOV_IMM_MEM16_8", .im, "11000110 10xxxmmm LLLLLLLL HHHHHHHH IIIIIIII", 0xC680#16, 0xFFC0#16, [], 3, 5⟩,
   ⟨"MOV_IMM_MEM16_16", .im, "11000111 10xxxmmm LLLLLLLL HHHHHHHH IIIIIIII JJJJJJJJ", 0xC780#16, 0xFFC0#16, [], 3, 6⟩]

/-- The rows of shapes AM and MA. -/
def tableAcc : List TableRow :=
  [⟨"MOV_ACC_MEM8", .am, "10100010 LLLLLLLL HHHHHHHH", 0xA200#16, 0xFF00#16, [], 4, 3⟩,
   ⟨"MOV_ACC_MEM16", .am, "10100011 LLLLLLLL HHHHHHHH", 0xA300#16, 0xFF00#16, [], 4, 3⟩,
   ⟨"MOV_MEM_ACC8", .ma, "10100000 LLLLLLLL HHHHHHHH", 0xA000#16, 0xFF00#16, [], 5, 3⟩,
   ⟨"MOV_MEM_ACC16", .ma, "10100001 LLLLLLLL HHHHHHHH", 0xA100#16, 0xFF00#16, [], 5, 3⟩]

/-- The 21 instruction rows. -/
def instructionRows : List TableRow := tableRm ++ tableIr ++ tableIm ++ tableAcc

/-- The catch-all row: it matches only when no other row does (R77). -/
def unrecRow : TableRow := ⟨"UNREC", .unrec, "bbbbbbbb", 0x0000#16, 0x0000#16, [], 6, 1⟩

/-- The rows that match a value of `b0 * 256 + b1`, the catch-all included (R77). -/
def matchingRows (b0 b1 : Byte) : List TableRow :=
  match instructionRows.filter (·.hits (b0 ++ b1)) with
  | [] => [unrecRow]
  | rows => rows

/-! ## The opcode table's numbering of bits -/

/-- The six bytes of an instruction whose bits are `w`, numbered as the opcode table's `match` and `fixed` columns
number them: the table's first word is the 16-bit number `b0 * 256 + b1` (R77), so `b0` is bits 15..8 and `b1` is
bits 7..0; later bytes count on from it, the third byte in bits 23..16. A row of 8 bits is `b0` alone. Bits above
`nbits` are 0. -/
def tableWordBytes (nbits w : Nat) : List Byte :=
  let v : BitVec 48 := BitVec.ofNat 48 (w % 2 ^ nbits)
  let byte (lo : Nat) : Byte := v.extractLsb' lo 8
  if nbits ≤ 8 then [byte 0, 0#8, 0#8, 0#8, 0#8, 0#8]
  else [byte 8, byte 0, byte 16, byte 24, byte 32, byte 40]

/-- The instruction the decoder reads from an opcode-table word. -/
def decodeTableWord (nbits w : Nat) : Option Instr :=
  match decode (tableWordBytes nbits w) with
  | .instr i => some i
  | .reject _ => none

end Sys2Proof
end

