-- ==== Sys2Proof/Machine/State.lean ====
section
/-! DEFINITION. The state of the sequencer SEQ (10_state.md rule R35), the output record types (R29), the reasons a
step can stop, and the state after reset (70_reset_and_hazards.md rule R280). -/

namespace Sys2Proof.Machine

/-- The width of an immediate: `Byte | Word` (R29). -/
inductive Width where
  | byte | word
  deriving DecidableEq, Repr

/-- An operand of a decoded instruction (R29). The numbers are the spec's `i16`, the signed integers -32768..32767
(R8), held as integers (log entry 5). -/
inductive Operand where
  /-- `Register(w, code)`: a name, never a value (R20). -/
  | register (w : Bool) (code : Code)
  /-- `DirectMemory(address)`. -/
  | directMemory (address : Int)
  /-- `IndexedMemory(rm, displacement)`: the expression `EA[rm]`, optionally offset. -/
  | indexedMemory (rm : Code) (displacement : Option Int)
  /-- `Immediate(value, width)`. -/
  | immediate (value : Int) (width : Width)
  deriving DecidableEq, Repr

/-- The mnemonic field: always `MOV`, but a field (R108). -/
inductive Mnemonic where
  | mov
  deriving DecidableEq, Repr

/-- `DecodedInstruction` (R29). -/
structure DecodedInstruction where
  mnemonic : Mnemonic
  destination : Operand
  source : Operand
  bytesConsumed : Nat
  deriving DecidableEq, Repr

/-- An output record; `off` is the spec's `at`, the cursor at which the unit starts (R29). -/
inductive OutRec where
  | instr (off : Nat) (ins : DecodedInstruction)
  | unrec (off : Nat) (byte : Byte)
  | trunc (off : Nat) (b0 : Byte) (avail : Nat)
  deriving DecidableEq, Repr

/-- The sequencer status register (R28). -/
inductive Status where
  | run | done | trunc
  deriving DecidableEq, Repr

/-- The input buffer `Buf`: its listed offsets with their bytes. `N` is how many there are; an offset that is not
listed is absent and has no value (R7, R40, R46). -/
abbrev Memory := List Host.Cell

/-- What an offset that is not listed reads as: nothing. A byte at or beyond `N` is absent, not zero (R46, D15). -/
def Memory.unlisted : Option Byte := none

/-- The complete state (R35), with the buffer that the spec's step relation takes as a parameter (R27, log entry 1). -/
structure State where
  /-- The buffer offset of the next unit (R25). -/
  cursor : Nat
  /-- `RUN`, `DONE` or `TRUNC` (R28). -/
  status : Status
  /-- The output log, oldest record first (R26). -/
  out : List OutRec
  /-- `Buf` (R27). No step changes it (R42). -/
  buf : Memory
  deriving DecidableEq, Repr

/-- Why a step answers no next state. All are raised by the sequencer's step, and all are safe: nothing is claimed
of what follows. -/
inductive Fault where
  /-- `status = DONE`: a final state has no step (R234). Safe. -/
  | runIsDone
  /-- `status = TRUNC`: a final state has no step (R233, R234). Safe. -/
  | runIsTruncated
  /-- `cursor > N`, which no reachable state has (R236). Safe. -/
  | cursorPastEnd
  /-- A byte of the window below `N` is not in the buffer, which no well-formed buffer allows (R46). Safe. -/
  | absentByte
  deriving DecidableEq, Repr

/-- Why an instruction has no meaning. No arm of `exec` uses it: every row of the opcode table is modelled. -/
inductive Refusal where
  /-- Raised by an arm of `exec` whose instruction has no meaning yet. Safe. -/
  | notModelled (mnemonic : String)
  deriving DecidableEq, Repr

/-- The state after reset: `cursor = 0`, `status = RUN`, `out = []` (R280). No buffer has been loaded, so `N = 0`
(log entry 2). -/
def State.reset : State where
  cursor := 0
  status := .run
  out := []
  buf := []

end Sys2Proof.Machine
end

