-- ==== Sys2Proof/Machine/Operands.lean ====
section
/-! DEFINITION. The operand forms and how a decoded instruction is built from them: sign extension (00_scope.md rule
R8), displacement and immediate assembly (30_encoding.md rules R70 and R71), the arms of the effective-address
resolver (R69), and the destination and source pair (R109, R126). -/

namespace Sys2Proof.Machine

/-! ## Numbers -/

/-- `sext_16(x)`: `x` if `x < 128`, and `x - 256` otherwise (R8). -/
def sext16 (x : Byte) : Int := if x.toNat < 128 then (x.toNat : Int) else (x.toNat : Int) - 256

/-- `s16(u)`: `u` if `u < 32768`, and `u - 65536` otherwise (R8). -/
def s16 (u : Word) : Int := if u.toNat < 32768 then (u.toNat : Int) else (u.toNat : Int) - 65536

/-! ## The arms of the effective-address resolver: the operand, and the bytes consumed after the ModRM byte (R69) -/

/-- Arm `(11, _)`: a register of the instruction's width. -/
def rmRegister (w : Bool) (rm : Code) : Operand × Nat := (.register w rm, 0)

/-- Arm `(00, 110)`: a direct address (R68). -/
def rmDirect (addr : Word) : Operand × Nat := (.directMemory (s16 addr), 2)

/-- Arm `(00, _)`: base/index with no displacement. -/
def rmPlain (rm : Code) : Operand × Nat := (.indexedMemory rm none, 0)

/-- Arm `(01, _)`: base/index with a sign-extended byte displacement. Zero stays `some 0` (R70). -/
def rmDisp8 (rm : Code) (disp : Byte) : Operand × Nat := (.indexedMemory rm (some (sext16 disp)), 1)

/-- Arm `(10, _)`: base/index with a signed word displacement. Zero stays `some 0` (R70). -/
def rmDisp16 (rm : Code) (disp : Word) : Operand × Nat := (.indexedMemory rm (some (s16 disp)), 2)

/-! ## Immediates, with the bytes they take (R71) -/

/-- The immediate of a `w = 0` form. -/
def imm8 (imm : Byte) : Operand × Nat := (.immediate (sext16 imm) .byte, 1)

/-- The immediate of a `w = 1` form. -/
def imm16 (imm : Word) : Operand × Nat := (.immediate (s16 imm) .word, 2)

/-! ## Decoded instructions -/

/-- The pair `(destination, source)` of shape RM, built from the direction bit (R109, R126): with `d = 1` the `reg`
operand is the destination. -/
def orderedPair (d : Bool) (r m : Operand) : Operand × Operand := if d then (r, m) else (m, r)

/-- The result of DecodeRM for a resolved r/m operand `m` (R120). -/
def regRmMove (d w : Bool) (reg : Code) (m : Operand × Nat) : DecodedInstruction :=
  let p := orderedPair d (.register w reg) m.1
  { mnemonic := .mov, destination := p.1, source := p.2, bytesConsumed := 2 + m.2 }

/-- The result of DecodeIR (R140): the immediate follows the opcode byte. -/
def immRegMove (w : Bool) (reg : Code) (imm : Operand × Nat) : DecodedInstruction :=
  { mnemonic := .mov, destination := .register w reg, source := imm.1, bytesConsumed := 1 + imm.2 }

/-- The result of DecodeIM for a resolved r/m operand `m` (R160): the immediate follows the addressing bytes. -/
def immRmMove (m imm : Operand × Nat) : DecodedInstruction :=
  { mnemonic := .mov, destination := m.1, source := imm.1, bytesConsumed := 2 + m.2 + imm.2 }

/-- The accumulator of width `w`: `al` or `ax`, register code 000 (R180). -/
def accumulator (w : Bool) : Operand := .register w 0b000#3

/-- The result of DecodeMA (R180). -/
def memToAcc (w : Bool) (addr : Word) : DecodedInstruction :=
  { mnemonic := .mov, destination := accumulator w, source := .directMemory (s16 addr), bytesConsumed := 3 }

/-- The result of DecodeAM (R183). -/
def accToMem (w : Bool) (addr : Word) : DecodedInstruction :=
  { mnemonic := .mov, destination := .directMemory (s16 addr), source := accumulator w, bytesConsumed := 3 }

/-- `IsMem(o)`: the operand names memory (R209). -/
def Operand.isMem : Operand → Bool
  | .register _ _ => false
  | .directMemory _ => true
  | .indexedMemory _ _ => true
  | .immediate _ _ => false

end Sys2Proof.Machine
end

