-- ==== Sys2Proof/Machine/Ops.lean ====
section
/-! DEFINITION. The named operations over the buffer and the sequencer's registers: reading and loading the buffer
(20_memory.md), `emit` and the cursor and status writes (00_scope.md rule R9), retiring a decoded unit
(46_decode_loop.md rule R232), and taking an exceptional outcome (60_exceptions.md rules R250, R252 and R256). There
is no return from one (R257). -/

namespace Sys2Proof.Machine

/-! ## The input buffer -/

/-- `N`, the length of the buffer (R5, R27). -/
def Memory.size (m : Memory) : Nat := m.length

/-- `MemRead(a, 1) = Buf[a]`, the only memory primitive; none where the byte is absent (R7, R46). -/
def Memory.read (m : Memory) (a : Nat) : Option Byte :=
  match m.find? fun c => c.1 == a with
  | some c => some c.2
  | none => Memory.unlisted

/-- The canonical form: the listed offsets are exactly `0..N-1`, in rising order (R40, R47). -/
def Memory.wf (m : Memory) : Bool := m.map (·.1) == List.range m.size

/-- Cells for a list of bytes, numbered upwards from `a`. -/
def Memory.cellsFrom (a : Nat) : List Byte → Memory
  | [] => []
  | b :: bs => (a, b) :: Memory.cellsFrom (a + 1) bs

/-- The buffer that holds the given bytes from offset 0 (R283). -/
def Memory.ofBytes (bs : List Byte) : Memory := Memory.cellsFrom 0 bs

/-- The bytes of a buffer, in its order. -/
def Memory.bytes (m : Memory) : List Byte := m.map (·.2)

/-- The `n` bytes at offsets `a, a+1, ...`, none if one of them is absent (R7, R41). -/
def Memory.readRange (m : Memory) (a : Nat) : Nat → Option (List Byte)
  | 0 => some []
  | n + 1 =>
    match m.read a, Memory.readRange m (a + 1) n with
    | some b, some bs => some (b :: bs)
    | _, _ => none

/-- Whether the buffer holds the given bytes at offset `a`. -/
def Memory.holdsAt (m : Memory) (a : Nat) (bs : List Byte) : Bool := m.readRange a bs.length == some bs

/-- The buffer with the given bytes placed at offset `a` by the host, before a run: what lies below and beyond stays,
and a gap below `a` is filled with 0 bytes, so that the offsets stay `0..N-1`. No step uses it (R42). -/
def Memory.placeAt (m : Memory) (a : Nat) (bs : List Byte) : Memory :=
  let old := m.bytes
  Memory.ofBytes ((old ++ List.replicate (a - old.length) 0#8).take a ++ bs ++ old.drop (a + bs.length))

namespace State

/-! ## The sequencer's registers -/

/-- `emit(rec)`: one record is appended at the end of the log (R9, R26). -/
def emit (r : OutRec) (s : State) : State := { s with out := s.out ++ [r] }

/-- `cursor <- v` (R9). -/
def setCursor (v : Nat) (s : State) : State := { s with cursor := v }

/-- `status <- v` (R230). -/
def setStatus (v : Status) (s : State) : State := { s with status := v }

/-- The host's load of a buffer (R283); no step uses it. -/
def setBuf (m : Memory) (s : State) : State := { s with buf := m }

/-- The reset state with the given bytes loaded as the buffer (R280, R283). -/
def load (bs : List Byte) : State := setBuf (Memory.ofBytes bs) reset

/-- A decoded unit: its record is emitted and the cursor advances by `bytes_consumed` (R230, R232). -/
def retire (ins : DecodedInstruction) (s : State) : State :=
  setCursor (s.cursor + ins.bytesConsumed) (emit (.instr s.cursor ins) s)

/-- The end of the buffer is reached: `status <- DONE` (R230). -/
def finish (s : State) : State := setStatus .done s

/-- `avail = min(WIN, N - cursor)` (R7, R41). -/
def avail (s : State) : Nat := min Config.windowBytes (s.buf.size - s.cursor)

/-- `win`: the bytes at the cursor, `avail` of them (R7, R230). -/
def window (s : State) : Option (List Byte) := s.buf.readRange s.cursor s.avail

end State

/-! ## Exceptional outcomes -/

/-- The causes of an exceptional outcome (R250, R252, R254). -/
inductive Cause where
  | unrecognized (b0 : Byte)
  | truncated (b0 : Byte) (avail : Nat)
  deriving DecidableEq, Repr

/-- The cause codes: 1 is unrecognized opcode, 2 is truncated instruction (R250, R252, D26). -/
def Cause.code : Cause → Nat
  | .unrecognized _ => 1
  | .truncated _ _ => 2

/-- Taking an exceptional outcome, `raise` of R9. It saves no state, changes no mode and uses no vector: it emits one
record, then an unrecognized byte moves the cursor past itself (R250), and a truncated unit ends the run with the
cursor left at its start (R233, R252). -/
def State.raise (c : Cause) (s : State) : State :=
  match c with
  | .unrecognized b0 => State.setCursor (s.cursor + 1) (State.emit (.unrec s.cursor b0) s)
  | .truncated b0 avail => State.setStatus .trunc (State.emit (.trunc s.cursor b0 avail) s)

/-! ## Records -/

/-- The offset at which a record's unit starts (R29). -/
def OutRec.off : OutRec → Nat
  | .instr off _ => off
  | .unrec off _ => off
  | .trunc off _ _ => off

/-- DEC's `len` for a record: the bytes consumed (R100). -/
def OutRec.len : OutRec → Nat
  | .instr _ ins => ins.bytesConsumed
  | .unrec _ _ => 1
  | .trunc _ _ _ => 0

/-- The cause code a record reports, if it reports an exceptional outcome (R250, R252). -/
def OutRec.causeCode : OutRec → Option Nat
  | .instr _ _ => none
  | .unrec _ b => some (Cause.code (.unrecognized b))
  | .trunc _ b0 avail => some (Cause.code (.truncated b0 avail))

end Sys2Proof.Machine
end

