-- ==== Sys2Proof/Machine/MovAcc.lean ====
section
/-! DEFINITION. Shapes AM and MA, accumulator to or from memory (44_mov_acc_mem.md): the meaning of each row. -/

namespace Sys2Proof.Machine

/-- `MOV_ACC_MEM8`, `mov [addr], al` (R184). -/
def execMovAccMem8 (addr : Word) (s : State) : Host.Outcome State Fault Refusal :=
  .next (s.retire (accToMem false addr))

/-- `MOV_ACC_MEM16`, `mov [addr], ax` (R185). -/
def execMovAccMem16 (addr : Word) (s : State) : Host.Outcome State Fault Refusal :=
  .next (s.retire (accToMem true addr))

/-- `MOV_MEM_ACC8`, `mov al, [addr]` (R181). -/
def execMovMemAcc8 (addr : Word) (s : State) : Host.Outcome State Fault Refusal :=
  .next (s.retire (memToAcc false addr))

/-- `MOV_MEM_ACC16`, `mov ax, [addr]` (R182). -/
def execMovMemAcc16 (addr : Word) (s : State) : Host.Outcome State Fault Refusal :=
  .next (s.retire (memToAcc true addr))

end Sys2Proof.Machine
end

