-- ==== Sys2Proof/Machine/MovImmMem.lean ====
section
/-! DEFINITION. Shape IM, immediate to register or memory (43_mov_imm_mem.md): the meaning of each row. The ignored
field `x` (`b1[5:3]`) has no effect (R166). -/

namespace Sys2Proof.Machine

/-- `MOV_IMM_MEM_RR8` (R161). -/
def execMovImmMemRr8 (_x rm : Code) (imm : Byte) (s : State) : Host.Outcome State Fault Refusal :=
  .next (s.retire (immRmMove (rmRegister false rm) (imm8 imm)))

/-- `MOV_IMM_MEM_RR16` (R161). -/
def execMovImmMemRr16 (_x rm : Code) (imm : Word) (s : State) : Host.Outcome State Fault Refusal :=
  .next (s.retire (immRmMove (rmRegister true rm) (imm16 imm)))

/-- `MOV_IMM_MEM0_8` (R162). -/
def execMovImmMem0_8 (_x rm : Code) (imm : Byte) (s : State) : Host.Outcome State Fault Refusal :=
  .next (s.retire (immRmMove (rmPlain rm) (imm8 imm)))

/-- `MOV_IMM_MEM0_16` (R162). -/
def execMovImmMem0_16 (_x rm : Code) (imm : Word) (s : State) : Host.Outcome State Fault Refusal :=
  .next (s.retire (immRmMove (rmPlain rm) (imm16 imm)))

/-- `MOV_IMM_DIRECT8` (R163). -/
def execMovImmDirect8 (_x : Code) (addr : Word) (imm : Byte) (s : State) : Host.Outcome State Fault Refusal :=
  .next (s.retire (immRmMove (rmDirect addr) (imm8 imm)))

/-- `MOV_IMM_DIRECT16` (R163). -/
def execMovImmDirect16 (_x : Code) (addr : Word) (imm : Word) (s : State) : Host.Outcome State Fault Refusal :=
  .next (s.retire (immRmMove (rmDirect addr) (imm16 imm)))

/-- `MOV_IMM_MEM8_8` (R164). -/
def execMovImmMem8_8 (_x rm : Code) (disp : Byte) (imm : Byte) (s : State) : Host.Outcome State Fault Refusal :=
  .next (s.retire (immRmMove (rmDisp8 rm disp) (imm8 imm)))

/-- `MOV_IMM_MEM8_16` (R164). -/
def execMovImmMem8_16 (_x rm : Code) (disp : Byte) (imm : Word) (s : State) : Host.Outcome State Fault Refusal :=
  .next (s.retire (immRmMove (rmDisp8 rm disp) (imm16 imm)))

/-- `MOV_IMM_MEM16_8` (R165). -/
def execMovImmMem16_8 (_x rm : Code) (disp : Word) (imm : Byte) (s : State) : Host.Outcome State Fault Refusal :=
  .next (s.retire (immRmMove (rmDisp16 rm disp) (imm8 imm)))

/-- `MOV_IMM_MEM16_16` (R165). -/
def execMovImmMem16_16 (_x rm : Code) (disp : Word) (imm : Word) (s : State) : Host.Outcome State Fault Refusal :=
  .next (s.retire (immRmMove (rmDisp16 rm disp) (imm16 imm)))

end Sys2Proof.Machine
end

