-- ==== Sys2Proof/Machine/MovImmReg.lean ====
section
/-! DEFINITION. Shape IR, immediate to register (42_mov_imm_reg.md): the meaning of each row. -/

namespace Sys2Proof.Machine

/-- `MOV_IMM_REG8` (R141). -/
def execMovImmReg8 (reg : Code) (imm : Byte) (s : State) : Host.Outcome State Fault Refusal :=
  .next (s.retire (immRegMove false reg (imm8 imm)))

/-- `MOV_IMM_REG16` (R142). -/
def execMovImmReg16 (reg : Code) (imm : Word) (s : State) : Host.Outcome State Fault Refusal :=
  .next (s.retire (immRegMove true reg (imm16 imm)))

end Sys2Proof.Machine
end

