-- ==== Sys2Proof/Machine/MovRm.lean ====
section
/-! DEFINITION. Shape RM, register/memory to or from register (41_mov_rm_reg.md): the meaning of each row. A unit's
record is emitted at the cursor and the cursor moves past it; nothing of an 8086 register or memory is touched. -/

namespace Sys2Proof.Machine

/-- `MOV_RM_REG_RR` (R121). -/
def execMovRmRegRr (d w : Bool) (reg rm : Code) (s : State) : Host.Outcome State Fault Refusal :=
  .next (s.retire (regRmMove d w reg (rmRegister w rm)))

/-- `MOV_RM_MEM0` (R122). -/
def execMovRmMem0 (d w : Bool) (reg rm : Code) (s : State) : Host.Outcome State Fault Refusal :=
  .next (s.retire (regRmMove d w reg (rmPlain rm)))

/-- `MOV_RM_DIRECT` (R123). -/
def execMovRmDirect (d w : Bool) (reg : Code) (addr : Word) (s : State) : Host.Outcome State Fault Refusal :=
  .next (s.retire (regRmMove d w reg (rmDirect addr)))

/-- `MOV_RM_MEM8` (R124). -/
def execMovRmMem8 (d w : Bool) (reg rm : Code) (disp : Byte) (s : State) : Host.Outcome State Fault Refusal :=
  .next (s.retire (regRmMove d w reg (rmDisp8 rm disp)))

/-- `MOV_RM_MEM16` (R125). -/
def execMovRmMem16 (d w : Bool) (reg rm : Code) (disp : Word) (s : State) : Host.Outcome State Fault Refusal :=
  .next (s.retire (regRmMove d w reg (rmDisp16 rm disp)))

end Sys2Proof.Machine
end

