-- ==== Sys2Proof/Machine/Unrec.lean ====
section
/-! DEFINITION. The catch-all row: a unit of one unrecognized byte (40_classifier_and_mux.md rule R104). -/

namespace Sys2Proof.Machine

/-- `UNREC`: the unrecognized-opcode outcome is taken, and decoding goes on at the next byte (R104, R250). -/
def execUnrec (b : Byte) (s : State) : Host.Outcome State Fault Refusal :=
  .next (s.raise (.unrecognized b))

end Sys2Proof.Machine
end

