-- ==== Sys2Proof/Machine/Dispatch.lean ====
section
/-! DEFINITION. One arm per row of the opcode table, each one call of that row's meaning. -/

namespace Sys2Proof.Machine

def exec (i : Instr) (s : State) : Host.Outcome State Fault Refusal :=
  match i with
  | .movRmRegRr d w reg rm => Sys2Proof.Machine.execMovRmRegRr d w reg rm s
  | .movRmMem0 d w reg rm => Sys2Proof.Machine.execMovRmMem0 d w reg rm s
  | .movRmDirect d w reg addr => Sys2Proof.Machine.execMovRmDirect d w reg addr s
  | .movRmMem8 d w reg rm disp => Sys2Proof.Machine.execMovRmMem8 d w reg rm disp s
  | .movRmMem16 d w reg rm disp => Sys2Proof.Machine.execMovRmMem16 d w reg rm disp s
  | .movImmReg8 reg imm => Sys2Proof.Machine.execMovImmReg8 reg imm s
  | .movImmReg16 reg imm => Sys2Proof.Machine.execMovImmReg16 reg imm s
  | .movImmMemRr8 x rm imm => Sys2Proof.Machine.execMovImmMemRr8 x rm imm s
  | .movImmMemRr16 x rm imm => Sys2Proof.Machine.execMovImmMemRr16 x rm imm s
  | .movImmMem0_8 x rm imm => Sys2Proof.Machine.execMovImmMem0_8 x rm imm s
  | .movImmMem0_16 x rm imm => Sys2Proof.Machine.execMovImmMem0_16 x rm imm s
  | .movImmDirect8 x addr imm => Sys2Proof.Machine.execMovImmDirect8 x addr imm s
  | .movImmDirect16 x addr imm => Sys2Proof.Machine.execMovImmDirect16 x addr imm s
  | .movImmMem8_8 x rm disp imm => Sys2Proof.Machine.execMovImmMem8_8 x rm disp imm s
  | .movImmMem8_16 x rm disp imm => Sys2Proof.Machine.execMovImmMem8_16 x rm disp imm s
  | .movImmMem16_8 x rm disp imm => Sys2Proof.Machine.execMovImmMem16_8 x rm disp imm s
  | .movImmMem16_16 x rm disp imm => Sys2Proof.Machine.execMovImmMem16_16 x rm disp imm s
  | .movAccMem8 addr => Sys2Proof.Machine.execMovAccMem8 addr s
  | .movAccMem16 addr => Sys2Proof.Machine.execMovAccMem16 addr s
  | .movMemAcc8 addr => Sys2Proof.Machine.execMovMemAcc8 addr s
  | .movMemAcc16 addr => Sys2Proof.Machine.execMovMemAcc16 addr s
  | .unrec b => Sys2Proof.Machine.execUnrec b s

end Sys2Proof.Machine
end

