-- ==== Sys2Proof/Machine/Sequencer.lean ====
section
/-! DEFINITION. The body of one SEQ step (46_decode_loop.md rule R230): the window is fetched at the cursor, decoded,
and the instruction form's meaning runs. A final state has no step (R234): a named fault. -/

namespace Sys2Proof.Machine

/-- What the sequencer does with the decoder's answer (R230, R233). -/
def runDecoded (r : Decoded) (s : State) : Host.Outcome State Fault Refusal :=
  match r with
  | .instr i => exec i s
  | .reject (.truncated b0 avail) => .next (s.raise (.truncated b0 avail))
  | .reject .noByte => .fault .absentByte

/-- One step in status `RUN`, where a unit starts at the cursor or the buffer ends (R230). -/
def runStep (s : State) : Host.Outcome State Fault Refusal :=
  if s.cursor = s.buf.size then .next s.finish
  else if s.buf.size < s.cursor then .fault .cursorPastEnd
  else
    match s.window with
    | some win => runDecoded (decode win) s
    | none => .fault .absentByte

/-- One SEQ step (R230, R234). -/
def seqStep (s : State) : Host.Outcome State Fault Refusal :=
  match s.status with
  | .run => runStep s
  | .done => .fault .runIsDone
  | .trunc => .fault .runIsTruncated

/-- The host's placing of one instruction, given as an opcode-table word, at the cursor, with the sequencer ready to
run it (`status = RUN`). -/
def State.placeTableWord (s : State) (nbits w : Nat) : State :=
  State.setStatus .run (State.setBuf (s.buf.placeAt s.cursor (tableWordBytes nbits w)) s)

end Sys2Proof.Machine
end

