-- ==== Sys2Proof/Machine/Step.lean ====
section
/-! DEFINITION. The step function of the machine and the host's way to place one instruction for it. -/

namespace Sys2Proof.Machine

/-- One step of the machine (R230). -/
def step (s : State) : Host.Outcome State Fault Refusal := seqStep s

/-- The state with the given opcode-table word's instruction stored where `step` fetches next. -/
def State.withFetchWord (s : State) (nbits w : Nat) : State := s.placeTableWord nbits w

end Sys2Proof.Machine
end

