-- ==== Sys2Proof/Machine/Dec.lean ====
section
/-! DEFINITION. DEC as the spec writes it, shape by shape over window bytes (40_classifier_and_mux.md rules R100 and
R105, 30_encoding.md rule R69, 41 to 44), and SEQ's step over it (46_decode_loop.md rule R230). The machine's own
step goes row by row through the opcode table and `exec`; a statement says that the two are the same machine. -/

namespace Sys2Proof.Machine

/-- The word at window offsets `p` and `p + 1`, if both bytes exist. -/
def winWord (win : List Byte) (p : Nat) : Option Word := do
  let lo ← win[p]?
  let hi ← win[p + 1]?
  some (le16 lo hi)

/-- `ResolveRM(w, mod, rm, p)`: the operand and the bytes consumed after the ModRM byte; none where a byte it would
read is absent (R69). -/
def resolveRm (w : Bool) (mod : BitVec 2) (rm : Code) (p : Nat) (win : List Byte) : Option (Operand × Nat) :=
  match mod with
  | 0b11#2 => some (rmRegister w rm)
  | 0b00#2 => if rm = 0b110#3 then (winWord win p).map rmDirect else some (rmPlain rm)
  | 0b01#2 => (win[p]?).map (rmDisp8 rm)
  | 0b10#2 => (winWord win p).map (rmDisp16 rm)

/-- The immediate at window offset `q` (R71). -/
def immediateAt (w : Bool) (q : Nat) (win : List Byte) : Option (Operand × Nat) :=
  if w then (winWord win q).map imm16 else (win[q]?).map imm8

/-- `DecodeRM(win)` (R120). -/
def decodeRm (win : List Byte) : Option DecodedInstruction := do
  let f := extractFields .rm win
  let d ← f.d
  let w ← f.w
  let mod ← f.mod
  let reg ← f.reg
  let rm ← f.rm
  let (m, k) ← resolveRm w mod rm 2 win
  let (dst, src) := orderedPair d (.register w reg) m
  some { mnemonic := .mov, destination := dst, source := src, bytesConsumed := 2 + k }

/-- `DecodeIR(win)` (R140). -/
def decodeIr (win : List Byte) : Option DecodedInstruction := do
  let f := extractFields .ir win
  let w ← f.w
  let reg ← f.reg
  let (src, n) ← immediateAt w 1 win
  some { mnemonic := .mov, destination := .register w reg, source := src, bytesConsumed := 1 + n }

/-- `DecodeIM(win)` (R160). -/
def decodeIm (win : List Byte) : Option DecodedInstruction := do
  let f := extractFields .im win
  let w ← f.w
  let mod ← f.mod
  let rm ← f.rm
  let (m, k) ← resolveRm w mod rm 2 win
  let (src, n) ← immediateAt w (2 + k) win
  some { mnemonic := .mov, destination := m, source := src, bytesConsumed := 2 + k + n }

/-- `DecodeMA(win)` (R180). -/
def decodeMa (win : List Byte) : Option DecodedInstruction := do
  let w ← (extractFields .ma win).w
  let a ← winWord win 1
  some { mnemonic := .mov, destination := .register w 0b000#3, source := .directMemory (s16 a), bytesConsumed := 3 }

/-- `DecodeAM(win)` (R183). -/
def decodeAm (win : List Byte) : Option DecodedInstruction := do
  let w ← (extractFields .am win).w
  let a ← winWord win 1
  some { mnemonic := .mov, destination := .directMemory (s16 a), source := .register w 0b000#3, bytesConsumed := 3 }

/-- The format multiplexer's selection of an extractor (R105). An unrecognized byte has none. -/
def selectExtractor (k : Shape) (win : List Byte) : Option DecodedInstruction :=
  match k with
  | .rm => decodeRm win
  | .ir => decodeIr win
  | .im => decodeIm win
  | .am => decodeAm win
  | .ma => decodeMa win
  | .unrec => none

/-- DEC's output ports (R100). -/
structure DecPorts where
  shape : Shape
  record : OutRec
  len : Nat
  deriving DecidableEq, Repr

/-- DEC's answer when bytes of a recognized encoding are missing (R107). -/
def decTruncated (k : Shape) (off : Nat) (b0 : Byte) (avail : Nat) : DecPorts := ⟨k, .trunc off b0 avail, 0⟩

/-- `DEC(at, win)` (R105): the classifier, then the length check, then the selected extractor. It has no value on the
empty window, with which it is never called (R103, R231). -/
def dec (off : Nat) (win : List Byte) : Option DecPorts :=
  match win with
  | [] => none
  | b0 :: rest =>
    match classify b0, rest with
    | .unrec, _ => some ⟨.unrec, .unrec off b0, 1⟩
    | k, [] => some (decTruncated k off b0 1)
    | k, b1 :: _ =>
      if win.length < need b0 b1 then some (decTruncated k off b0 win.length)
      else (selectExtractor k win).map fun ins => ⟨k, .instr off ins, need b0 b1⟩

/-- What SEQ does with DEC's outputs (R230). -/
def commitPorts (p : DecPorts) (s : State) : State :=
  match p.record with
  | .trunc _ _ _ => State.setStatus .trunc (State.emit p.record s)
  | .instr _ _ => State.setCursor (s.cursor + p.len) (State.emit p.record s)
  | .unrec _ _ => State.setCursor (s.cursor + p.len) (State.emit p.record s)

/-- `Step(S)` as R230 writes it: none where the spec defines no step. -/
def specStep (s : State) : Option State :=
  match s.status with
  | .done => none
  | .trunc => none
  | .run =>
    if s.cursor = s.buf.size then some s.finish
    else do
      let win ← s.window
      let p ← dec s.cursor win
      some (commitPorts p s)

end Sys2Proof.Machine
end

