-- ==== Sys2Proof/Machine/Tables.lean ====
section
/-! DEFINITION. The constant tables: the two register-name ROMs (10_state.md rules R21 and R22) and the
effective-address ROM (30_encoding.md rule R67). The entries that the source does not attest are the spec's own, from
the standard 8086 tables (92_eei_decisions.md D12). -/

namespace Sys2Proof.Machine

/-- `REG8`, selected by `w = 0` (R21). -/
def reg8 (code : Code) : String :=
  match code with
  | 0b000#3 => "al"
  | 0b001#3 => "cl"
  | 0b010#3 => "dl"
  | 0b011#3 => "bl"
  | 0b100#3 => "ah"
  | 0b101#3 => "ch"
  | 0b110#3 => "dh"
  | 0b111#3 => "bh"

/-- `REG16`, selected by `w = 1` (R22). -/
def reg16 (code : Code) : String :=
  match code with
  | 0b000#3 => "ax"
  | 0b001#3 => "cx"
  | 0b010#3 => "dx"
  | 0b011#3 => "bx"
  | 0b100#3 => "sp"
  | 0b101#3 => "bp"
  | 0b110#3 => "si"
  | 0b111#3 => "di"

/-- `REGNAME(w, code)` (R23). -/
def regName (w : Bool) (code : Code) : String := if w then reg16 code else reg8 code

/-- `EA[rm]`, the base/index expression inside the brackets (R67). -/
def eaText (rm : Code) : String :=
  match rm with
  | 0b000#3 => "bx + si"
  | 0b001#3 => "bx + di"
  | 0b010#3 => "bp + si"
  | 0b011#3 => "bp + di"
  | 0b100#3 => "si"
  | 0b101#3 => "di"
  | 0b110#3 => "bp"
  | 0b111#3 => "bx"

end Sys2Proof.Machine
end

