-- ==== Sys2Proof/Machine/Format.lean ====
section
/-! DEFINITION. The operand formatter (45_formatter.md): a pure function from a record to one text line. The texts of
the two diagnostics are the parameter `DiagTexts`. The radix, the spacing, the signed spelling of addresses and the
letter case are the spec's decisions D6, D18, D7 and D22. -/

namespace Sys2Proof.Machine

/-- `dec(v)` (R201): base 10, no leading zeros, `-` directly before a negative number, no `+`. -/
def decimal (v : Int) : String := if v < 0 then "-" ++ Nat.repr v.natAbs else Nat.repr v.natAbs

/-- `bin8(b)`: the eight binary digits, most significant first, as R212 defines them for its default text. -/
def bin8 (b : Byte) : String :=
  String.ofList ((List.range 8).map fun i => if b.getLsbD (7 - i) then '1' else '0')

/-- The offset part of an indexed-memory operand: the sign token and the absolute magnitude (R204, R205). A zero
displacement is spelled out (R208). -/
def displacementText : Option Int → String
  | none => ""
  | some d => (if d < 0 then " - " else " + ") ++ decimal d.natAbs

/-- The size directive (R207). -/
def sizeDirective : Width → String
  | .byte => "byte "
  | .word => "word "

/-- `Op(o, i)` (R209): an immediate takes the size directive only when the destination names memory (R207). -/
def operandText (o : Operand) (i : DecodedInstruction) : String :=
  match o with
  | .register w code => regName w code
  | .directMemory a => "[" ++ decimal a ++ "]"
  | .indexedMemory rm disp => "[" ++ eaText rm ++ displacementText disp ++ "]"
  | .immediate v width => (if i.destination.isMem then sizeDirective width else "") ++ decimal v

/-- The spelling of the mnemonic field (R108, R200). -/
def mnemonicText : Mnemonic → String
  | .mov => "mov"

/-- The line of a decoded instruction (R200). -/
def instructionText (i : DecodedInstruction) : String :=
  mnemonicText i.mnemonic ++ " " ++ operandText i.destination i ++ ", " ++ operandText i.source i

/-- `Fmt` (R209). -/
def fmt (t : DiagTexts) : OutRec → String
  | .instr _ i => instructionText i
  | .unrec _ b => t.unrecText b
  | .trunc off b0 avail => t.truncText off b0 avail

/-- The text output of a log: one line per record, in order (R210, R240). -/
def textOutput (t : DiagTexts) (out : List OutRec) : List String := out.map (fmt t)

/-- A text is one line: it holds no line break (R212, R213). -/
def OneLine (s : String) : Prop := '\n' ∉ s.toList ∧ '\r' ∉ s.toList

/-- A text begins as a decoded instruction's line does. -/
def BeginsMov (s : String) : Prop := "mov ".toList <+: s.toList

/-- What the spec asks of the two texts: each is one line and does not begin with `"mov "`; the first contains the
byte's binary spelling (R212); the second differs from every value of the first (R213). DESIGN CHOICE (log entry 24):
the binary spelling is the eight digits of `bin8`, leading zeros included; the spec leaves the padding open. -/
def Conforming (t : DiagTexts) : Prop :=
  (∀ b, OneLine (t.unrecText b) ∧ ¬ BeginsMov (t.unrecText b) ∧ (bin8 b).toList <:+: (t.unrecText b).toList) ∧
    ∀ off b0 avail, OneLine (t.truncText off b0 avail) ∧ ¬ BeginsMov (t.truncText off b0 avail) ∧
      ∀ b, t.truncText off b0 avail ≠ t.unrecText b

/-- The spec's default texts (R212, R213). -/
def defaultTexts : DiagTexts where
  unrecText b := "; unrecognized opcode 0b" ++ bin8 b
  truncText off b0 _ := "; truncated instruction at " ++ decimal off ++ ": 0b" ++ bin8 b0

end Sys2Proof.Machine
end

