-- ==== Sys2Proof/Machine/Run.lean ====
section
/-! DEFINITION. Runs of the sequencer and their observation (46_decode_loop.md rules R234, R235 and R240). -/

namespace Sys2Proof.Machine

/-- A final state: `DONE` or `TRUNC` (R234). -/
def State.isFinal (s : State) : Bool := s.status != .run

/-- At most `k` steps, stopping at a final state (R234). -/
def runSteps : Nat → State → Host.Outcome State Fault Refusal
  | 0, s => .next s
  | k + 1, s =>
    if s.isFinal then .next s
    else
      match step s with
      | .next s' => runSteps k s'
      | .fault f => .fault f
      | .refused r => .refused r

/-- The run on a buffer: from reset with the buffer loaded, for the `N + 1` steps that suffice (R235, R282). -/
def runBuffer (bs : List Byte) : Host.Outcome State Fault Refusal := runSteps (bs.length + 1) (State.load bs)

/-- The observation of a run on a buffer: the records and the final status (R240). -/
def observe (bs : List Byte) : Option (List OutRec × Status) :=
  match runBuffer bs with
  | .next s => some (s.out, s.status)
  | .fault _ => none
  | .refused _ => none

/-- The text output of a run on a buffer (R240). -/
def observeText (t : DiagTexts) (bs : List Byte) : Option (List String) := (observe bs).map fun o => textOutput t o.1

/-- The instruction forms' meanings one after another. -/
def execAll : List Instr → State → Host.Outcome State Fault Refusal
  | [], s => .next s
  | i :: is, s =>
    match exec i s with
    | .next s' => execAll is s'
    | .fault f => .fault f
    | .refused r => .refused r

end Sys2Proof.Machine
end

