-- ==== Sys2Proof/Safety.lean ====
section
/-! DEFINITION. What counts as a safe state of a run: the invariant of the sequencer, in the terms the statements use
(10_state.md R25 to R29, 46_decode_loop.md R232 to R236). Every part is a check that computes. -/

namespace Sys2Proof.Machine

/-- `i16`: -32768..32767 (R8). -/
def inI16 (v : Int) : Bool := -32768 ≤ v && v ≤ 32767

/-- An operand as the record types admit it: `i16` numbers, byte immediates in the range of a sign-extended byte, and
never `bp` with no displacement (R8, R29, R68). -/
def Operand.ok : Operand → Bool
  | .register _ _ => true
  | .directMemory a => inI16 a
  | .indexedMemory rm none => rm != 0b110#3
  | .indexedMemory _ (some d) => inI16 d
  | .immediate v .byte => -128 ≤ v && v ≤ 127
  | .immediate v .word => inI16 v

/-- An immediate operand. -/
def Operand.isImmediate : Operand → Bool
  | .register _ _ => false
  | .directMemory _ => false
  | .indexedMemory _ _ => false
  | .immediate _ _ => true

/-- A record as the record types admit it: operands in range, a destination that is no immediate, at most one memory
operand, `bytes_consumed` in 2..6, `have` in 1..5 (R29). -/
def OutRec.ok : OutRec → Bool
  | .instr _ i =>
    i.destination.ok && i.source.ok && !i.destination.isImmediate && !(i.destination.isMem && i.source.isMem) &&
      2 ≤ i.bytesConsumed && i.bytesConsumed ≤ 6
  | .unrec _ b => !recognizedByte b
  | .trunc _ b0 avail => recognizedByte b0 && 1 ≤ avail && avail ≤ 5

/-- A truncated-instruction record. -/
def OutRec.isTrunc : OutRec → Bool
  | .instr _ _ => false
  | .unrec _ _ => false
  | .trunc _ _ _ => true

/-- Whether records, in order, each start where the one before ended, from `a` to `e` (R232, R238). -/
def tile (a : Nat) : List OutRec → Nat → Bool
  | [], e => a == e
  | r :: rs, e => r.off == a && tile (a + r.len) rs e

/-- What DEC gives at a buffer offset (R41, R105). -/
def decAt (m : Memory) (a : Nat) : Option DecPorts :=
  match m.readRange a (min Config.windowBytes (m.size - a)) with
  | some win => dec a win
  | none => none

/-- A record that is what DEC gives at its offset. -/
def OutRec.faithful (m : Memory) (r : OutRec) : Bool :=
  match decAt m r.off with
  | some p => p.record == r
  | none => false

namespace State

/-- The buffer has its canonical form, and the cursor is within it: `0 <= cursor <= N` (R25, R236). -/
def InBounds (s : State) : Prop := s.buf.wf = true ∧ s.cursor ≤ s.buf.size

/-- Every record of the log is one the record types admit (R29). -/
def RecordsOk (s : State) : Prop := s.out.all OutRec.ok = true

/-- The records tile the consumed bytes `0..cursor-1` without gap or overlap (R232, R238). -/
def Tiled (s : State) : Prop := tile 0 s.out s.cursor = true

/-- Every record is what DEC gives at its offset of the buffer (R105, R240). -/
def Faithful (s : State) : Prop := s.out.all (OutRec.faithful s.buf) = true

/-- The status agrees with the cursor and the log: `DONE` only at the end of the buffer; `TRUNC` exactly when the last
record is a truncated one; no other record is (R28, R233, R234). -/
def statusCheck (s : State) : Bool :=
  match s.status with
  | .run => s.out.all fun r => !r.isTrunc
  | .done => s.cursor == s.buf.size && s.out.all fun r => !r.isTrunc
  | .trunc =>
    match s.out.getLast? with
    | some (.trunc off _ avail) =>
      off == s.cursor && avail == s.buf.size - s.cursor && s.out.dropLast.all fun r => !r.isTrunc
    | _ => false

/-- `statusCheck` as a statement. -/
def StatusAgrees (s : State) : Prop := s.statusCheck = true

/-- The invariant of the sequencer. -/
def Inv (s : State) : Prop := s.InBounds ∧ s.RecordsOk ∧ s.Tiled ∧ s.Faithful ∧ s.StatusAgrees

end State

end Sys2Proof.Machine
end

