-- ==== Sys2Proof/Certificates/Slice0/Obligations.lean ====
section
/-! DEFINITION. The statements for the provers. Each docstring names the rules of spec/ it formalises. -/

open Sys2Proof Sys2Proof.Machine Host

/-! ## Numbers, fields and the classifier -/

/-- R8: `zext_16`, `le16`, `sext_16`, `s16` and `abs` have the values the rule gives, in the ranges it gives. -/
def Obligations.NumberReadings : Prop :=
  (∀ x : Byte, (x.setWidth 16).toNat = x.toNat) ∧
  (∀ lo hi : Byte, (le16 lo hi).toNat = lo.toNat + 256 * hi.toNat) ∧
  (∀ x : Byte, (x.toNat < 128 → sext16 x = x.toNat) ∧ (128 ≤ x.toNat → sext16 x = (x.toNat : Int) - 256) ∧
    -128 ≤ sext16 x ∧ sext16 x ≤ 127 ∧ sext16 x = x.toInt) ∧
  (∀ u : Word, (u.toNat < 32768 → s16 u = u.toNat) ∧ (32768 ≤ u.toNat → s16 u = (u.toNat : Int) - 65536) ∧
    -32768 ≤ s16 u ∧ s16 u ≤ 32767 ∧ s16 u = u.toInt) ∧
  (∀ u : Word, (s16 u).natAbs ≤ 32768 ∧ ((s16 u).natAbs = 32768 ↔ u = 0x8000#16))

/-- R60, R73, R102: the bytes of each shape, as value ranges, and how many there are of each. -/
def Obligations.ClassifierByteSets : Prop :=
  (∀ b : Byte,
    (classify b = .rm ↔ 0x88 ≤ b.toNat ∧ b.toNat ≤ 0x8B) ∧
    (classify b = .ir ↔ 0xB0 ≤ b.toNat ∧ b.toNat ≤ 0xBF) ∧
    (classify b = .im ↔ b.toNat = 0xC6 ∨ b.toNat = 0xC7) ∧
    (classify b = .am ↔ b.toNat = 0xA2 ∨ b.toNat = 0xA3) ∧
    (classify b = .ma ↔ b.toNat = 0xA0 ∨ b.toNat = 0xA1) ∧
    (classify b = .unrec ↔ recognizedByte b = false)) ∧
  ([Shape.rm, .ir, .im, .am, .ma, .unrec].map fun k =>
    ((List.range 256).filter fun n => classify (BitVec.ofNat 8 n) == k).length) = [4, 16, 2, 2, 2, 230]

/-- R102: whatever the order in which the five tests are tried, the first match is `Class(b0)`. -/
def Obligations.ClassifierOrderIrrelevant : Prop :=
  ∀ order : List (Shape × (Byte → Bool)), order.Perm classifierTests → ∀ b0 : Byte, firstMatch order b0 = classify b0

/-- R66: which fields the extractor gives for a shape and a window, and their values. -/
def Obligations.ExtractorFieldValidity : Prop :=
  ∀ (k : Shape) (win : List Byte),
    (extractFields k win).d = (if k = .rm then (win[0]?).map fieldD else none) ∧
    (extractFields k win).w =
      (if k = .rm ∨ k = .im ∨ k = .am ∨ k = .ma then (win[0]?).map fieldW
       else if k = .ir then (win[0]?).map fieldWIr else none) ∧
    (extractFields k win).mod = (if k = .rm ∨ k = .im then (win[1]?).map fieldMod else none) ∧
    (extractFields k win).reg =
      (if k = .ir then (win[0]?).map fieldRegIr else if k = .rm then (win[1]?).map fieldReg else none) ∧
    (extractFields k win).rm = (if k = .rm ∨ k = .im then (win[1]?).map fieldRm else none) ∧
    (∀ b : Byte, fieldD b = b.getLsbD 1 ∧ fieldW b = b.getLsbD 0 ∧ fieldWIr b = b.getLsbD 3 ∧
      b = fieldMod b ++ fieldReg b ++ fieldRm b ∧ fieldRegIr b = fieldRm b)

/-- From R68 and R69: `rm = 110` is a direct address under `mod = 00`, `bp` plus the displacement under `01` and `10`,
and a register under `11`. The signed reading of the direct address is the spec's decision D7 (log entry 15). -/
def Obligations.RmSixDependsOnMod : Prop :=
  ∀ (w : Bool) (win : List Byte) (lo hi : Byte), win[2]? = some lo → win[3]? = some hi →
    resolveRm w 0b00#2 0b110#3 2 win = some (.directMemory (s16 (le16 lo hi)), 2) ∧
    resolveRm w 0b01#2 0b110#3 2 win = some (.indexedMemory 0b110#3 (some (sext16 lo)), 1) ∧
    resolveRm w 0b10#2 0b110#3 2 win = some (.indexedMemory 0b110#3 (some (s16 (le16 lo hi))), 2) ∧
    resolveRm w 0b11#2 0b110#3 2 win = some (.register w 0b110#3, 0) ∧
    eaText 0b110#3 = "bp"

/-! ## Encoding -/

/-- Words written out from the spec's encodings, one or two of each family, decode to the forms they stand for. -/
def Obligations.WrittenWordsDecode : Prop :=
  decode [0b10001001#8, 0b11011000#8] = .instr (.movRmRegRr false true 0b011#3 0b000#3) ∧
  decode [0b10001010#8, 0b00000000#8] = .instr (.movRmMem0 true false 0b000#3 0b000#3) ∧
  decode [0b10001011#8, 0b00011110#8, 0xFB#8, 0x09#8] = .instr (.movRmDirect true true 0b011#3 0x09FB#16) ∧
  decode [0b10111010#8, 0x6C#8, 0x0F#8] = .instr (.movImmReg16 0b010#3 0x0F6C#16) ∧
  decode [0b11000110#8, 0b01111110#8, 0x02#8, 0x07#8] = .instr (.movImmMem8_8 0b111#3 0b110#3 0x02#8 0x07#8) ∧
  decode [0b10100011#8, 0x0F#8, 0x00#8] = .instr (.movAccMem16 0x000F#16) ∧
  decode [0b10100000#8, 0xFB#8, 0x09#8] = .instr (.movMemAcc8 0x09FB#16) ∧
  decode [0b11111111#8] = .instr (.unrec 0xFF#8)

/-- R62 to R65, R77: decoding the encoding of a well-formed form, whatever bytes follow, gives the form back. -/
def Obligations.DecodeOfEncode : Prop :=
  ∀ (i : Instr) (rest : List Byte), i.wf = true → decode (encode i ++ rest) = .instr i

/-- R73, R74, R77: what the decoder reads is well-formed, and the bytes it was read from are its encoding. -/
def Obligations.EncodeOfDecode : Prop :=
  ∀ (win : List Byte) (i : Instr), decode win = .instr i → i.wf = true ∧ encode i <+: win

/-- R61, R72: an encoded form has exactly its shape's byte count, which `Need` gives from its first two bytes: 2 to 6
for an instruction, 1 for an unrecognized unit. -/
def Obligations.EncodedLengthIsNeed : Prop :=
  ∀ i : Instr, i.wf = true →
    (encode i).length = i.length ∧
    (∀ (rest : List Byte) (b0 b1 : Byte) (t : List Byte), encode i ++ rest = b0 :: b1 :: t → need b0 b1 = i.length) ∧
    ((∃ b, i = .unrec b) → i.length = 1) ∧ ((∀ b, i ≠ .unrec b) → 2 ≤ i.length ∧ i.length ≤ 6)

/-- R77: exactly one row of the opcode table matches each value of `b0 * 256 + b1`, and it is the row of the form the
decoder reads, with its length. -/
def Obligations.OpcodeTableSelectsOneRow : Prop :=
  (∀ b0 b1 : Byte, ∃ row, matchingRows b0 b1 = [row] ∧ row.format = classify b0 ∧ row.length = need b0 b1) ∧
  ∀ (b0 b1 : Byte) (t : List Byte) (i : Instr), decode (b0 :: b1 :: t) = .instr i →
    ∃ row, matchingRows b0 b1 = [row] ∧ row.mnemonic = i.mnemonic ∧ row.length = i.length

/-! ## DEC -/

/-- R105: DEC and the row decoder agree: a decoded form's meaning does what SEQ does with DEC's outputs, and where the
decoder rejects a truncated unit, so does DEC. -/
def Obligations.DecAgreesWithDecoder : Prop :=
  (∀ (s : State) (win : List Byte) (i : Instr), decode win = .instr i →
    ∃ p, dec s.cursor win = some p ∧ p.len = i.length ∧ p.record.len = i.length ∧
      exec i s = .next (commitPorts p s)) ∧
  (∀ (off : Nat) (win : List Byte) (b0 : Byte) (avail : Nat), decode win = .reject (.truncated b0 avail) →
    dec off win = some ⟨classify b0, .trunc off b0 avail, 0⟩ ∧ avail = win.length ∧ win.head? = some b0)

/-- R107: DEC's truncation rule: for a recognized `b0`, `Trunc(at, b0, avail)` with `len = 0` when one byte is present
or fewer than `Need`, with `have` in 1..5; and no truncation from `Need` bytes on, so never with 6. -/
def Obligations.DecTruncatesWhenBytesMissing : Prop :=
  ∀ (off : Nat) (b0 : Byte), classify b0 ≠ .unrec →
    dec off [b0] = some ⟨classify b0, .trunc off b0 1, 0⟩ ∧
    ∀ (b1 : Byte) (t : List Byte),
      ((b0 :: b1 :: t).length < need b0 b1 →
        dec off (b0 :: b1 :: t) = some ⟨classify b0, .trunc off b0 (b0 :: b1 :: t).length, 0⟩ ∧
          1 ≤ (b0 :: b1 :: t).length ∧ (b0 :: b1 :: t).length ≤ 5) ∧
      (need b0 b1 ≤ (b0 :: b1 :: t).length →
        ∃ ins, dec off (b0 :: b1 :: t) = some ⟨classify b0, .instr off ins, need b0 b1⟩ ∧
          ins.bytesConsumed = need b0 b1) ∧
      need b0 b1 ≤ 6

/-- R106: with the whole unit present, DEC's outputs depend on its `Need` bytes only. -/
def Obligations.DecDependsOnUnitBytesOnly : Prop :=
  ∀ (off : Nat) (b0 b1 : Byte) (t t' : List Byte),
    need b0 b1 ≤ (b0 :: b1 :: t).length → need b0 b1 ≤ (b0 :: b1 :: t').length →
    (b0 :: b1 :: t).take (need b0 b1) = (b0 :: b1 :: t').take (need b0 b1) →
    dec off (b0 :: b1 :: t) = dec off (b0 :: b1 :: t')

/-- R166: in shape IM, every value of `b1[5:3]` gives DEC's outputs for 000. -/
def Obligations.ImmediateMemoryIgnoresRegField : Prop :=
  ∀ (off : Nat) (b0 : Byte) (mod : BitVec 2) (x rm : Code) (t : List Byte), classify b0 = .im →
    dec off (b0 :: modRm mod x rm :: t) = dec off (b0 :: modRm mod 0b000#3 rm :: t)

/-! ## What each instruction form does: `exec` answers the next state, for every state and operands -/

/-- From R120 to R126: the five rows of shape RM. The record is emitted at the cursor, the cursor moves past the unit,
and nothing else changes. The signed reading of the direct address is the spec's decision D7 (log entry 15). -/
def Obligations.RegisterMemoryRows : Prop :=
  ∀ (d w : Bool) (reg rm : Code) (addr disp : Word) (disp8 : Byte) (s : State),
    let r : Operand := .register w reg
    let record (m : Operand) (n : Nat) : OutRec :=
      .instr s.cursor ⟨.mov, if d then r else m, if d then m else r, n⟩
    exec (.movRmRegRr d w reg rm) s =
      .next { s with out := s.out ++ [record (.register w rm) 2], cursor := s.cursor + 2 } ∧
    exec (.movRmMem0 d w reg rm) s =
      .next { s with out := s.out ++ [record (.indexedMemory rm none) 2], cursor := s.cursor + 2 } ∧
    exec (.movRmDirect d w reg addr) s =
      .next { s with out := s.out ++ [record (.directMemory (s16 addr)) 4], cursor := s.cursor + 4 } ∧
    exec (.movRmMem8 d w reg rm disp8) s =
      .next { s with out := s.out ++ [record (.indexedMemory rm (some (sext16 disp8))) 3], cursor := s.cursor + 3 } ∧
    exec (.movRmMem16 d w reg rm disp) s =
      .next { s with out := s.out ++ [record (.indexedMemory rm (some (s16 disp))) 4], cursor := s.cursor + 4 }

/-- R140 to R142: the two rows of shape IR. -/
def Obligations.ImmediateToRegisterRows : Prop :=
  ∀ (reg : Code) (b : Byte) (v : Word) (s : State),
    exec (.movImmReg8 reg b) s =
      .next { s with
        out := s.out ++ [.instr s.cursor ⟨.mov, .register false reg, .immediate (sext16 b) .byte, 2⟩]
        cursor := s.cursor + 2 } ∧
    exec (.movImmReg16 reg v) s =
      .next { s with
        out := s.out ++ [.instr s.cursor ⟨.mov, .register true reg, .immediate (s16 v) .word, 3⟩]
        cursor := s.cursor + 3 }

/-- From R160 to R166: the five `w = 0` rows of shape IM; the ignored field has no effect. The register destination of
`mod = 11` is the spec's decision D9 (log entry 16), the signed reading of the direct address its decision D7 (log
entry 15). -/
def Obligations.ByteImmediateToMemoryRows : Prop :=
  ∀ (x rm : Code) (addr disp : Word) (disp8 b : Byte) (s : State),
    let after (dst : Operand) (n : Nat) : Outcome State Fault Refusal :=
      .next { s with
        out := s.out ++ [.instr s.cursor ⟨.mov, dst, .immediate (sext16 b) .byte, n⟩]
        cursor := s.cursor + n }
    exec (.movImmMemRr8 x rm b) s = after (.register false rm) 3 ∧
    exec (.movImmMem0_8 x rm b) s = after (.indexedMemory rm none) 3 ∧
    exec (.movImmDirect8 x addr b) s = after (.directMemory (s16 addr)) 5 ∧
    exec (.movImmMem8_8 x rm disp8 b) s = after (.indexedMemory rm (some (sext16 disp8))) 4 ∧
    exec (.movImmMem16_8 x rm disp b) s = after (.indexedMemory rm (some (s16 disp))) 5

/-- From R160 to R166: the five `w = 1` rows of shape IM; the ignored field has no effect. The register destination of
`mod = 11` is the spec's decision D9 (log entry 16), the signed reading of the direct address its decision D7 (log
entry 15). -/
def Obligations.WordImmediateToMemoryRows : Prop :=
  ∀ (x rm : Code) (addr disp v : Word) (disp8 : Byte) (s : State),
    let after (dst : Operand) (n : Nat) : Outcome State Fault Refusal :=
      .next { s with
        out := s.out ++ [.instr s.cursor ⟨.mov, dst, .immediate (s16 v) .word, n⟩]
        cursor := s.cursor + n }
    exec (.movImmMemRr16 x rm v) s = after (.register true rm) 4 ∧
    exec (.movImmMem0_16 x rm v) s = after (.indexedMemory rm none) 4 ∧
    exec (.movImmDirect16 x addr v) s = after (.directMemory (s16 addr)) 6 ∧
    exec (.movImmMem8_16 x rm disp8 v) s = after (.indexedMemory rm (some (sext16 disp8))) 5 ∧
    exec (.movImmMem16_16 x rm disp v) s = after (.indexedMemory rm (some (s16 disp))) 6

/-- From R180 to R186: the four rows of shapes AM and MA: always 3 bytes, `al` or `ax` by the opcode; the direct address
is the operand of the resolver's direct-address arm, `rmDirect`. The signed reading of the address is the spec's
decision D7 (log entry 15). -/
def Obligations.AccumulatorRows : Prop :=
  ∀ (addr : Word) (s : State),
    let after (dst src : Operand) : Outcome State Fault Refusal :=
      .next { s with out := s.out ++ [.instr s.cursor ⟨.mov, dst, src, 3⟩], cursor := s.cursor + 3 }
    exec (.movMemAcc8 addr) s = after (.register false 0b000#3) (.directMemory (s16 addr)) ∧
    exec (.movMemAcc16 addr) s = after (.register true 0b000#3) (.directMemory (s16 addr)) ∧
    exec (.movAccMem8 addr) s = after (.directMemory (s16 addr)) (.register false 0b000#3) ∧
    exec (.movAccMem16 addr) s = after (.directMemory (s16 addr)) (.register true 0b000#3) ∧
    (rmDirect addr).1 = .directMemory (s16 addr) ∧ regName false 0b000#3 = "al" ∧ regName true 0b000#3 = "ax"

/-- R104, R250: the `UNREC` row: one record, one byte; the status stays as it is. -/
def Obligations.UnrecognizedRow : Prop :=
  ∀ (b : Byte) (s : State),
    exec (.unrec b) s = .next { s with out := s.out ++ [.unrec s.cursor b], cursor := s.cursor + 1 }

/-- The frame of every instruction form: it completes; the buffer (every offset of it), the status and the earlier
records stay; one record is appended, which starts at the old cursor and is as long as the cursor's advance. -/
def Obligations.EveryFormCompletesWithFrame : Prop :=
  ∀ (i : Instr) (s : State), ∃ t r, exec i s = .next t ∧
    t.out = s.out ++ [r] ∧ r.off = s.cursor ∧ r.len = i.length ∧ t.cursor = s.cursor + i.length ∧
    t.status = s.status ∧ t.buf = s.buf ∧ (∀ a, t.buf.read a = s.buf.read a) ∧
    (i.wf = true → r.ok = true) ∧ r.isTrunc = false

/-- R126: in shape RM, `d` decides which of the register and the resolved r/m operand is the destination; neither is an
immediate, so no size directive is rendered. -/
def Obligations.DirectionBitOrdersOperands : Prop :=
  ∀ (d w : Bool) (mod : BitVec 2) (reg rm : Code) (p : Nat) (win : List Byte) (m : Operand × Nat),
    resolveRm w mod rm p win = some m →
    let ins := regRmMove d w reg m
    (d = true → ins.destination = .register w reg ∧ ins.source = m.1) ∧
    (d = false → ins.destination = m.1 ∧ ins.source = .register w reg) ∧
    ins.destination.isImmediate = false ∧ ins.source.isImmediate = false ∧
    ∀ wd, ¬ (sizeDirective wd).toList <+: (operandText ins.source ins).toList

/-! ## From the bytes at the cursor to the next state -/

/-- A `RUN` state at the end of the buffer goes to `DONE` and emits nothing; the reset state, whose buffer is empty,
does so at once (R230, R281). The reset values and the end on an empty buffer are the spec's decisions D4 and D5 (log
entry 13), the empty buffer of the reset state is the model's choice (log entry 2). -/
def Obligations.EndOfBufferIsDone : Prop :=
  (∀ s : State, s.status = .run → s.cursor = s.buf.size → step s = .next { s with status := .done }) ∧
  step State.reset = .next { State.reset with status := .done }

/-- A step runs the decoded instruction: when the window at the cursor decodes to `i`, the step is `exec i`, and the
sequencer adds nothing around it. -/
def Obligations.StepRunsDecodedInstruction : Prop :=
  ∀ (s : State) (win : List Byte) (i : Instr), s.status = .run → s.cursor < s.buf.size → s.window = some win →
    decode win = .instr i → step s = exec i s

/-- The same, from the encoding: when the buffer holds the encoding of a well-formed form at the cursor, the step is
that form's meaning, whatever follows in the buffer. -/
def Obligations.StepRunsEncodedInstruction : Prop :=
  ∀ (s : State) (i : Instr), s.InBounds → s.status = .run → i.wf = true →
    s.buf.holdsAt s.cursor (encode i) = true → step s = exec i s

/-- The host's placing of an opcode-table word: the next step runs the instruction that the decoder reads from it. How a
word is numbered and where it is placed is the model's choice (log entries 6 and 7). -/
def Obligations.FetchWordIsRunNext : Prop :=
  ∀ (s : State) (nbits w : Nat) (i : Instr), decodeTableWord nbits w = some i →
    step (s.withFetchWord nbits w) = exec i (s.withFetchWord nbits w) ∧
    (s.withFetchWord nbits w).cursor = s.cursor ∧ (s.withFetchWord nbits w).out = s.out ∧
    (s.withFetchWord nbits w).buf.wf = true

/-- From R120 to R126, from bytes: a unit `100010dw mod reg rm` with its displacement or address bytes; and the line of
R120's example record. The signed reading of the direct address is the spec's decision D7 (log entry 15). -/
def Obligations.RegisterMemoryUnits : Prop :=
  ∀ (s : State) (d w : Bool) (reg rm : Code) (lo hi : Byte), s.InBounds → s.status = .run →
    let b0 : Byte := 0b100010#6 ++ BitVec.ofBool d ++ BitVec.ofBool w
    let b1 (mod : BitVec 2) : Byte := mod ++ reg ++ rm
    let after (m : Operand) (n : Nat) : Outcome State Fault Refusal :=
      .next { s with
        out := s.out ++ [.instr s.cursor
          ⟨.mov, if d then .register w reg else m, if d then m else .register w reg, n⟩]
        cursor := s.cursor + n }
    (s.buf.holdsAt s.cursor [b0, b1 0b11#2] = true → step s = after (.register w rm) 2) ∧
    (rm ≠ 0b110#3 → s.buf.holdsAt s.cursor [b0, b1 0b00#2] = true → step s = after (.indexedMemory rm none) 2) ∧
    (rm = 0b110#3 → s.buf.holdsAt s.cursor [b0, b1 0b00#2, lo, hi] = true →
      step s = after (.directMemory (s16 (le16 lo hi))) 4) ∧
    (s.buf.holdsAt s.cursor [b0, b1 0b01#2, lo] = true → step s = after (.indexedMemory rm (some (sext16 lo))) 3) ∧
    (s.buf.holdsAt s.cursor [b0, b1 0b10#2, lo, hi] = true →
      step s = after (.indexedMemory rm (some (s16 (le16 lo hi)))) 4) ∧
    (∀ t : DiagTexts, fmt t (.instr s.cursor ⟨.mov, .register true 0b000#3, .register true 0b011#3, 2⟩) = "mov ax, bx")

/-- From R140 to R142, from bytes: a unit `1011wrrr` with its immediate; the line has no size directive. The radix of the
line is the spec's decision D6 (log entry 14). -/
def Obligations.ImmediateToRegisterUnits : Prop :=
  ∀ (s : State) (reg : Code) (lo hi : Byte) (t : DiagTexts), s.InBounds → s.status = .run →
    let after (ins : DecodedInstruction) : Outcome State Fault Refusal :=
      .next { s with out := s.out ++ [.instr s.cursor ins], cursor := s.cursor + ins.bytesConsumed }
    (s.buf.holdsAt s.cursor [0b10110#5 ++ reg, lo] = true →
      step s = after ⟨.mov, .register false reg, .immediate (sext16 lo) .byte, 2⟩) ∧
    (s.buf.holdsAt s.cursor [0b10111#5 ++ reg, lo, hi] = true →
      step s = after ⟨.mov, .register true reg, .immediate (s16 (le16 lo hi)) .word, 3⟩) ∧
    (∀ (off n : Nat) (w : Bool) (v : Int) (wd : Width),
      fmt t (.instr off ⟨.mov, .register w reg, .immediate v wd, n⟩) = "mov " ++ regName w reg ++ ", " ++ decimal v)

/-- From R160 to R165, from bytes: a unit `1100011w mod xxx rm`, its addressing bytes, then its immediate; and the line
of the rule's example record. The register destination of `mod = 11` is the spec's decision D9 (log entry 16), the
signed reading and spelling of every address its decision D7 (log entry 15), the radix its decision D6 (log entry 14). -/
def Obligations.ImmediateToMemoryUnits : Prop :=
  ∀ (s : State) (w : Bool) (x rm : Code) (lo hi : Byte) (imm : List Byte) (src : Operand) (n : Nat),
    s.InBounds → s.status = .run →
    ((w = false ∧ ∃ i, imm = [i] ∧ src = .immediate (sext16 i) .byte ∧ n = 1) ∨
      (w = true ∧ ∃ i j, imm = [i, j] ∧ src = .immediate (s16 (le16 i j)) .word ∧ n = 2)) →
    let b0 : Byte := 0b1100011#7 ++ BitVec.ofBool w
    let b1 (mod : BitVec 2) : Byte := mod ++ x ++ rm
    let after (dst : Operand) (k : Nat) : Outcome State Fault Refusal :=
      .next { s with
        out := s.out ++ [.instr s.cursor ⟨.mov, dst, src, 2 + k + n⟩]
        cursor := s.cursor + (2 + k + n) }
    (s.buf.holdsAt s.cursor ([b0, b1 0b11#2] ++ imm) = true → step s = after (.register w rm) 0) ∧
    (rm ≠ 0b110#3 → s.buf.holdsAt s.cursor ([b0, b1 0b00#2] ++ imm) = true →
      step s = after (.indexedMemory rm none) 0) ∧
    (rm = 0b110#3 → s.buf.holdsAt s.cursor ([b0, b1 0b00#2, lo, hi] ++ imm) = true →
      step s = after (.directMemory (s16 (le16 lo hi))) 2) ∧
    (s.buf.holdsAt s.cursor ([b0, b1 0b01#2, lo] ++ imm) = true →
      step s = after (.indexedMemory rm (some (sext16 lo))) 1) ∧
    (s.buf.holdsAt s.cursor ([b0, b1 0b10#2, lo, hi] ++ imm) = true →
      step s = after (.indexedMemory rm (some (s16 (le16 lo hi)))) 2) ∧
    (∀ (t : DiagTexts) (a v : Int),
      fmt t (.instr s.cursor ⟨.mov, .directMemory a, .immediate v .byte, 5⟩) =
        "mov [" ++ decimal a ++ "], byte " ++ decimal v)

/-- From R180, R183 and R203, from bytes: the four accumulator opcodes, each with a two-byte address; and the lines of
the rules' example records. The signed reading and spelling of every address is the spec's decision D7 (log entry 15),
the radix its decision D6 (log entry 14). -/
def Obligations.AccumulatorUnits : Prop :=
  ∀ (s : State) (w : Bool) (lo hi : Byte), s.InBounds → s.status = .run →
    let after (dst src : Operand) : Outcome State Fault Refusal :=
      .next { s with out := s.out ++ [.instr s.cursor ⟨.mov, dst, src, 3⟩], cursor := s.cursor + 3 }
    (s.buf.holdsAt s.cursor [0b1010000#7 ++ BitVec.ofBool w, lo, hi] = true →
      step s = after (.register w 0b000#3) (.directMemory (s16 (le16 lo hi)))) ∧
    (s.buf.holdsAt s.cursor [0b1010001#7 ++ BitVec.ofBool w, lo, hi] = true →
      step s = after (.directMemory (s16 (le16 lo hi))) (.register w 0b000#3)) ∧
    (∀ (t : DiagTexts) (a : Int),
      fmt t (.instr s.cursor ⟨.mov, .register false 0b000#3, .directMemory a, 3⟩) = "mov al, [" ++ decimal a ++ "]" ∧
      fmt t (.instr s.cursor ⟨.mov, .directMemory a, .register true 0b000#3, 3⟩) = "mov [" ++ decimal a ++ "], ax")

/-- From R104 and R212: an unrecognized byte at the cursor, whatever follows: DEC gives `Unrec` with `len = 1`; the step
emits that one record, which names the byte, moves the cursor by 1 and goes on. That a conforming text spells the byte
with eight digits is the model's choice (log entry 24). -/
def Obligations.UnrecognizedByteIsSkipped : Prop :=
  (∀ (off : Nat) (b0 : Byte) (rest : List Byte), classify b0 = .unrec →
    dec off (b0 :: rest) = some ⟨.unrec, .unrec off b0, 1⟩) ∧
  ∀ (s : State) (b0 : Byte), s.InBounds → s.status = .run → s.buf.read s.cursor = some b0 → classify b0 = .unrec →
    step s = .next { s with out := s.out ++ [.unrec s.cursor b0], cursor := s.cursor + 1 } ∧
    ∀ t, Conforming t → (bin8 b0).toList <:+: (fmt t (.unrec s.cursor b0)).toList

/-- R251: after an unrecognized byte the next unit is classified from the very next byte. -/
def Obligations.ResynchronizationIsByteWise : Prop :=
  ∀ (s : State) (b0 : Byte) (i : Instr), s.InBounds → s.status = .run → classify b0 = .unrec → i.wf = true →
    s.buf.holdsAt s.cursor (b0 :: encode i) = true →
    ∃ t, step s = .next t ∧ t.out = s.out ++ [.unrec s.cursor b0] ∧ t.cursor = s.cursor + 1 ∧ step t = exec i t

/-- R107, R233, R252: a recognized byte at the cursor with bytes of its unit missing: the step emits one `Trunc`
record with the number of bytes left, sets `TRUNC` and leaves the cursor; nothing follows. Halting is the spec's
decision D3, and the cause codes are its decision D26. -/
def Obligations.TruncatedUnitEndsRun : Prop :=
  ∀ (s : State) (b0 : Byte), s.InBounds → s.status = .run → s.buf.read s.cursor = some b0 → classify b0 ≠ .unrec →
    (s.cursor + 1 = s.buf.size ∨
      ∃ b1, s.buf.read (s.cursor + 1) = some b1 ∧ s.buf.size < s.cursor + need b0 b1) →
    let t : State := { s with out := s.out ++ [.trunc s.cursor b0 (s.buf.size - s.cursor)], status := .trunc }
    step s = .next t ∧ step t = .fault .runIsTruncated ∧
    1 ≤ s.buf.size - s.cursor ∧ s.buf.size - s.cursor ≤ 5 ∧
    (OutRec.trunc s.cursor b0 (s.buf.size - s.cursor)).causeCode = some 2 ∧
    (OutRec.unrec s.cursor b0).causeCode = some 1

/-! ## The step as a whole -/

/-- R230: the machine's step, row by row through the opcode table, is the step the spec writes over DEC: the same
states have a step, and it leads to the same state. The halt on a truncated unit is the spec's decision D3 (log entry
10). -/
def Obligations.StepIsSpecStep : Prop :=
  ∀ s t : State, step s = .next t ↔ specStep s = some t

/-- From R230, R232 and R233: what a step does to the cursor and the log, by the record it emits; the cursor never moves
back. The last case, a `Trunc` record that ends the run with the cursor left, is the spec's decision D3 (log entry
10). -/
def Obligations.StepAdvancesByRecord : Prop :=
  ∀ s t : State, step s = .next t →
    s.cursor ≤ t.cursor ∧
    ((t = { s with status := .done } ∧ s.cursor = s.buf.size) ∨
      (∃ ins, 2 ≤ ins.bytesConsumed ∧ ins.bytesConsumed ≤ 6 ∧
        t = { s with out := s.out ++ [.instr s.cursor ins], cursor := s.cursor + ins.bytesConsumed }) ∨
      (∃ b, t = { s with out := s.out ++ [.unrec s.cursor b], cursor := s.cursor + 1 }) ∨
      (∃ b0 n, t = { s with out := s.out ++ [.trunc s.cursor b0 n], status := .trunc }))

/-- R42: no step writes the buffer: every offset reads after a step as it did before, and `N` stays. -/
def Obligations.StepNeverWritesBuffer : Prop :=
  ∀ s t : State, step s = .next t → t.buf = s.buf ∧ t.buf.size = s.buf.size ∧ ∀ a, t.buf.read a = s.buf.read a

/-- R26: the log only grows, by at most one record at its end, and is never read back: with another log, the step does
the same and appends the same. -/
def Obligations.LogIsAppendOnlyAndNeverRead : Prop :=
  ∀ s t : State, step s = .next t → ∃ l, l.length ≤ 1 ∧ t.out = s.out ++ l ∧
    ∀ o, step { s with out := o } = .next { t with out := o ++ l }

/-- R41: a step depends on the buffer only through `N` and the bytes at offsets `cursor` to `cursor + 5`; bytes before
the cursor are never read again. -/
def Obligations.StepReadsOnlyWindow : Prop :=
  ∀ (s t : State) (m : Memory), m.size = s.buf.size →
    (∀ i, i < 6 → s.cursor + i < s.buf.size → m.read (s.cursor + i) = s.buf.read (s.cursor + i)) →
    step s = .next t → step { s with buf := m } = .next { t with buf := m }

/-- From R234: a final state has no step; a `RUN` state within bounds always has one; `DONE` means that the records cover
every byte; `TRUNC` means that the 1 to 5 bytes left begin an incomplete recognized encoding. That a truncated unit ends
the run in `TRUNC` is the spec's decision D3 (log entry 10). -/
def Obligations.FinalStatesAndProgress : Prop :=
  (∀ s t : State, s.isFinal = true → step s ≠ .next t) ∧
  (∀ s : State, s.InBounds → s.status = .run → ∃ t, step s = .next t) ∧
  (∀ s : State, s.Inv → s.status = .done → tile 0 s.out s.buf.size = true ∧ ∀ r ∈ s.out, r.isTrunc = false) ∧
  (∀ s : State, s.Inv → s.status = .trunc → 1 ≤ s.buf.size - s.cursor ∧ s.buf.size - s.cursor ≤ 5 ∧
    ∃ win b0, s.window = some win ∧ win.length = s.buf.size - s.cursor ∧ recognizedByte b0 = true ∧
      decode win = .reject (.truncated b0 win.length))

/-! ## The invariant -/

/-- The reset state has the sequencer's invariant. The reset values are the spec's decision D4 (log entry 13), the empty
buffer is the model's choice (log entry 2). -/
def Obligations.ResetHasInvariant : Prop := State.reset.Inv

/-- So has the reset state with any buffer loaded: `cursor = 0`, `status = RUN`, an empty log (the spec's decision D4),
and a buffer that holds the given bytes and no others. -/
def Obligations.LoadedBufferHasInvariant : Prop :=
  ∀ bs : List Byte, (State.load bs).Inv ∧ (State.load bs).cursor = 0 ∧ (State.load bs).status = .run ∧
    (State.load bs).out = [] ∧ (State.load bs).buf.size = bs.length ∧
    ∀ a, (State.load bs).buf.read a = bs[a]?

/-- Every step keeps the invariant, from every state that has it (R25 to R29, R232 to R236). What `TRUNC` means in it
rests on the spec's decision D3 (log entry 10). -/
def Obligations.StepKeepsInvariant : Prop :=
  ∀ s t : State, s.Inv → step s = .next t → t.Inv

/-! ## Runs -/

/-- R235: from every state within bounds, a final state is reached in at most `N - cursor + 1` steps; from a loaded
buffer in at most `N + 1`, with at most `N` records. -/
def Obligations.RunTerminates : Prop :=
  (∀ s : State, s.InBounds → ∃ t, runSteps (s.buf.size - s.cursor + 1) s = .next t ∧ t.isFinal = true) ∧
  ∀ bs : List Byte, ∃ t, runBuffer bs = .next t ∧ t.isFinal = true ∧ t.out.length ≤ bs.length

/-- R239: within bounds every `RUN` state has exactly one next state, and every buffer has exactly one final state: one
is reached, and no other is, in any number of steps. -/
def Obligations.EveryBufferHasOneFinalState : Prop :=
  (∀ s : State, s.InBounds → s.status = .run → ∃ t, step s = .next t ∧ ∀ u, step s = .next u → u = t) ∧
  ∀ bs : List Byte, ∃ t, t.isFinal = true ∧ runBuffer bs = .next t ∧
    ∀ (k : Nat) (u : State), runSteps k (State.load bs) = .next u → u.isFinal = true → u = t

/-- R237: on the concatenation of the encodings of any well-formed forms, the run does what their meanings do one after
another, one record each, then is `DONE` at the end of the buffer. -/
def Obligations.LengthConservation : Prop :=
  ∀ is : List Instr, (∀ i ∈ is, i.wf = true) →
    ∃ t, execAll is (State.load (is.flatMap encode)) = .next t ∧
      runBuffer (is.flatMap encode) = .next { t with status := .done } ∧
      t.cursor = (is.flatMap encode).length ∧ t.cursor = (is.map Instr.length).sum ∧ t.out.length = is.length

/-- R234, R238: every buffer is the encodings of well-formed forms, one after another, then nothing (and the run is
`DONE`) or the beginning of an incomplete one (and the run is `TRUNC`, the spec's decision D3, log entry 10). -/
def Obligations.EveryBufferParses : Prop :=
  ∀ bs : List Byte, ∃ (is : List Instr) (tail : List Byte) (t : State),
    (∀ i ∈ is, i.wf = true) ∧ bs = is.flatMap encode ++ tail ∧ runBuffer bs = .next t ∧
    ((tail = [] ∧ t.status = .done ∧ t.cursor = bs.length ∧ t.out.length = is.length) ∨
      (∃ b0, decode tail = .reject (.truncated b0 tail.length) ∧ t.status = .trunc ∧
        t.cursor + tail.length = bs.length ∧ t.out.length = is.length + 1))

/-- R238: where the second unit starts depends on the byte before it: after `B0` it is at offset 2, after the
unrecognized byte `90` at offset 1, whatever the other bytes are. -/
def Obligations.BoundariesDependOnEarlierBytes : Prop :=
  ∀ (b : Byte) (rest : List Byte), ∃ t t',
    step (State.load (0xB0#8 :: b :: rest)) = .next t ∧ t.cursor = 2 ∧
    step (State.load (0x90#8 :: b :: rest)) = .next t' ∧ t'.cursor = 1

/-! ## The formatter -/

/-- R21 to R23: the sixteen register names. The entries the source does not attest are the spec's decision D12. -/
def Obligations.RegisterNameTables : Prop :=
  [0#3, 1#3, 2#3, 3#3, 4#3, 5#3, 6#3, 7#3].map (regName false) = ["al", "cl", "dl", "bl", "ah", "ch", "dh", "bh"] ∧
  [0#3, 1#3, 2#3, 3#3, 4#3, 5#3, 6#3, 7#3].map (regName true) = ["ax", "cx", "dx", "bx", "sp", "bp", "si", "di"]

/-- R24: the sixteen names are sixteen distinct strings. The names the source does not attest are the spec's decision D12
(log entry 9). -/
def Obligations.RegisterNamesDistinct : Prop :=
  ∀ (w w' : Bool) (c c' : Code), regName w c = regName w' c' → w = w' ∧ c = c'

/-- R67: the effective-address table. The entries the source does not attest are the spec's decision D12. -/
def Obligations.EffectiveAddressTable : Prop :=
  [0#3, 1#3, 2#3, 3#3, 4#3, 5#3, 6#3, 7#3].map eaText =
    ["bx + si", "bx + di", "bp + si", "bp + di", "si", "di", "bp", "bx"]

/-- R200 to R207, R209: the line of every decoded instruction, by its operands. The spec's decisions in it: the radix
(D6) and the spacing (D18), log entry 14; the signed spelling of direct addresses (D7) and the magnitude 32768 of the
displacement -32768 (D8), log entry 15; no directive for a register destination (D9), log entry 16. -/
def Obligations.LineForms : Prop :=
  ∀ (t : DiagTexts) (off n : Nat) (w : Bool) (c rm : Code) (a d v : Int) (wd : Width) (dst src : Operand),
    let line (dst src : Operand) := fmt t (.instr off ⟨.mov, dst, src, n⟩)
    let plain (o : Operand) := operandText o ⟨.mov, dst, src, n⟩
    plain (.register w c) = regName w c ∧
    plain (.directMemory a) = "[" ++ decimal a ++ "]" ∧
    plain (.indexedMemory rm none) = "[" ++ eaText rm ++ "]" ∧
    (0 ≤ d → plain (.indexedMemory rm (some d)) = "[" ++ eaText rm ++ " + " ++ decimal d ++ "]") ∧
    (d < 0 → plain (.indexedMemory rm (some d)) = "[" ++ eaText rm ++ " - " ++ decimal (-d) ++ "]") ∧
    (src.isImmediate = false → line dst src = "mov " ++ plain dst ++ ", " ++ plain src) ∧
    (dst.isMem = true → line dst (.immediate v .byte) = "mov " ++ plain dst ++ ", byte " ++ decimal v) ∧
    (dst.isMem = true → line dst (.immediate v .word) = "mov " ++ plain dst ++ ", word " ++ decimal v) ∧
    line (.register w c) (.immediate v wd) = "mov " ++ regName w c ++ ", " ++ decimal v

/-- From R208 and R204: a zero displacement is spelled out, and is not the form without displacement. The space on each
side of the sign is the spec's decision D18 (log entry 14). -/
def Obligations.ZeroDisplacementIsSpelledOut : Prop :=
  ∀ (rm : Code) (i : DecodedInstruction),
    operandText (.indexedMemory rm (some 0)) i = "[" ++ eaText rm ++ " + 0]" ∧
    operandText (.indexedMemory rm (some 0)) i ≠ operandText (.indexedMemory rm none) i

/-- R201: a decimal spelling is all digits but for a leading minus sign of a negative number, has no leading zero, and
tells the number. The radix is the spec's decision D6. -/
def Obligations.DecimalSpelling : Prop :=
  (∀ n : Nat, (decimal n).toList ≠ [] ∧ (∀ c ∈ (decimal n).toList, c.isDigit = true) ∧
    (n ≠ 0 → (decimal n).toList.head? ≠ some '0') ∧
    (decimal n).toList.foldl (fun acc c => acc * 10 + (c.toNat - 48)) 0 = n) ∧
  decimal 0 = "0" ∧
  (∀ n : Nat, 0 < n → decimal (-(n : Int)) = "-" ++ decimal n)

/-- R212, R213: the spec's default texts meet its conditions on the two OPEN texts. The readings of "one line" and of
"binary spelling" in those conditions are the model's choice (log entries 8 and 24). -/
def Obligations.DefaultTextsConform : Prop := Conforming defaultTexts

/-- R200, R212, R213: with any conforming texts, the lines that begin with `mov ` are those of the decoded
instructions, and no diagnostic of one kind is one of the other. `Conforming` holds two readings of the model's own
(log entries 8 and 24). -/
def Obligations.MovLinesAreDecodedInstructions : Prop :=
  ∀ t : DiagTexts, Conforming t → ∀ r r' : OutRec,
    (BeginsMov (fmt t r) ↔ r.causeCode = none) ∧
    (r.causeCode = some 1 → r'.causeCode = some 2 → fmt t r ≠ fmt t r')
end

