-- ==== Sys2Proof/Laws/Bits.lean ====
section
/-! SUPPORT. Bytes, words and fields: assembling and taking apart are inverse, and the classifier on the first bytes
that the encoder writes. -/

namespace Sys2Proof

theorem le16_toNat (lo hi : Byte) : (le16 lo hi).toNat = lo.toNat + 256 * hi.toNat := by
  have h1 := lo.isLt
  have h2 := hi.isLt
  simp only [le16, BitVec.toNat_add, BitVec.toNat_mul, BitVec.toNat_setWidth, BitVec.toNat_ofNat]
  omega

theorem lowByte_toNat (v : Word) : (lowByte v).toNat = v.toNat % 256 := by
  simp [lowByte, BitVec.extractLsb'_toNat]

theorem highByte_toNat (v : Word) : (highByte v).toNat = v.toNat / 256 := by
  have := v.isLt
  simp [highByte, BitVec.extractLsb'_toNat, Nat.shiftRight_eq_div_pow]
  omega

@[simp] theorem lowByte_le16 (lo hi : Byte) : lowByte (le16 lo hi) = lo := by
  have := lo.isLt
  apply BitVec.eq_of_toNat_eq
  rw [lowByte_toNat, le16_toNat]
  omega

@[simp] theorem highByte_le16 (lo hi : Byte) : highByte (le16 lo hi) = hi := by
  have := lo.isLt
  apply BitVec.eq_of_toNat_eq
  rw [highByte_toNat, le16_toNat]
  omega

@[simp] theorem le16_bytes (v : Word) : le16 (lowByte v) (highByte v) = v := by
  apply BitVec.eq_of_toNat_eq
  rw [le16_toNat, lowByte_toNat, highByte_toNat]
  omega

@[simp] theorem wordBytes_le16 (lo hi : Byte) : wordBytes (le16 lo hi) = [lo, hi] := by simp [wordBytes]

@[simp] theorem wordBytes_length (v : Word) : (wordBytes v).length = 2 := rfl

/-! ## The ModRM byte -/

@[simp] theorem fieldMod_modRm : ∀ (m : BitVec 2) (r x : Code), fieldMod (modRm m r x) = m := by decide
@[simp] theorem fieldReg_modRm : ∀ (m : BitVec 2) (r x : Code), fieldReg (modRm m r x) = r := by decide
@[simp] theorem fieldRm_modRm : ∀ (m : BitVec 2) (r x : Code), fieldRm (modRm m r x) = x := by decide
theorem modRm_fields : ∀ b : Byte, modRm (fieldMod b) (fieldReg b) (fieldRm b) = b := by decide

/-! ## First bytes -/

@[simp] theorem classify_opRm : ∀ d w : Bool, classify (opRm d w) = .rm := by decide
@[simp] theorem fieldD_opRm : ∀ d w : Bool, fieldD (opRm d w) = d := by decide
@[simp] theorem fieldW_opRm : ∀ d w : Bool, fieldW (opRm d w) = w := by decide
theorem opRm_fields : ∀ b : Byte, classify b = .rm → opRm (fieldD b) (fieldW b) = b := by decide

@[simp] theorem classify_ir8 : ∀ r : Code, classify (0b10110#5 ++ r) = .ir := by decide
@[simp] theorem classify_ir16 : ∀ r : Code, classify (0b10111#5 ++ r) = .ir := by decide
@[simp] theorem fieldWIr_ir8 : ∀ r : Code, fieldWIr (0b10110#5 ++ r) = false := by decide
@[simp] theorem fieldWIr_ir16 : ∀ r : Code, fieldWIr (0b10111#5 ++ r) = true := by decide
@[simp] theorem fieldRegIr_ir8 : ∀ r : Code, fieldRegIr (0b10110#5 ++ r) = r := by decide
@[simp] theorem fieldRegIr_ir16 : ∀ r : Code, fieldRegIr (0b10111#5 ++ r) = r := by decide
theorem ir_fields : ∀ b : Byte, classify b = .ir →
    b = if fieldWIr b then 0b10111#5 ++ fieldRegIr b else 0b10110#5 ++ fieldRegIr b := by decide

theorem im_fields : ∀ b : Byte, classify b = .im → b = if fieldW b then 0b11000111#8 else 0b11000110#8 := by decide
theorem am_fields : ∀ b : Byte, classify b = .am → b = if fieldW b then 0b10100011#8 else 0b10100010#8 := by decide
theorem ma_fields : ∀ b : Byte, classify b = .ma → b = if fieldW b then 0b10100001#8 else 0b10100000#8 := by decide

@[simp] theorem classify_im8 : classify 0b11000110#8 = .im := by decide
@[simp] theorem classify_im16 : classify 0b11000111#8 = .im := by decide
@[simp] theorem classify_am8 : classify 0b10100010#8 = .am := by decide
@[simp] theorem classify_am16 : classify 0b10100011#8 = .am := by decide
@[simp] theorem classify_ma8 : classify 0b10100000#8 = .ma := by decide
@[simp] theorem classify_ma16 : classify 0b10100001#8 = .ma := by decide

@[simp] theorem fieldW_im8 : fieldW 0b11000110#8 = false := by decide
@[simp] theorem fieldW_im16 : fieldW 0b11000111#8 = true := by decide
@[simp] theorem fieldW_am8 : fieldW 0b10100010#8 = false := by decide
@[simp] theorem fieldW_am16 : fieldW 0b10100011#8 = true := by decide
@[simp] theorem fieldW_ma8 : fieldW 0b10100000#8 = false := by decide
@[simp] theorem fieldW_ma16 : fieldW 0b10100001#8 = true := by decide

/-- The classifier and the opcode map's list of the 26 recognized bytes agree. -/
theorem classify_unrec_iff : ∀ b : Byte, classify b = .unrec ↔ recognizedByte b = false := by decide

/-! ## Taking fields off the front -/

@[simp] theorem take8_cons (b : Byte) (t : List Byte) : take8 (b :: t) = some (b, t) := rfl
@[simp] theorem take8_nil : take8 [] = none := rfl
@[simp] theorem take16_cons (lo hi : Byte) (t : List Byte) : take16 (lo :: hi :: t) = some (le16 lo hi, t) := rfl
@[simp] theorem take16_one (lo : Byte) : take16 [lo] = none := rfl
@[simp] theorem take16_nil : take16 [] = none := rfl
@[simp] theorem take16_wordBytes (v : Word) (t : List Byte) : take16 (wordBytes v ++ t) = some (v, t) := by
  simp [wordBytes]

theorem take8_eq_some {t t' : List Byte} {b : Byte} : take8 t = some (b, t') ↔ t = b :: t' := by
  cases t <;> simp [take8]

theorem take16_eq_some {t t' : List Byte} {v : Word} : take16 t = some (v, t') ↔ t = wordBytes v ++ t' := by
  constructor
  · intro h
    match t, h with
    | lo :: hi :: t, h =>
      simp only [take16, Option.some.injEq, Prod.mk.injEq] at h
      simp [← h.1, ← h.2]
  · rintro rfl
    simp

/-! ## Signed readings -/

namespace Machine

theorem sext16_eq_toInt (x : Byte) : sext16 x = x.toInt := by
  have := x.isLt
  unfold sext16
  rw [BitVec.toInt_eq_toNat_cond]
  split <;> split <;> omega

theorem s16_eq_toInt (u : Word) : s16 u = u.toInt := by
  have := u.isLt
  unfold s16
  rw [BitVec.toInt_eq_toNat_cond]
  split <;> split <;> omega

theorem sext16_range (x : Byte) : -128 ≤ sext16 x ∧ sext16 x ≤ 127 := by
  have := x.isLt
  unfold sext16
  split <;> omega

theorem s16_range (u : Word) : -32768 ≤ s16 u ∧ s16 u ≤ 32767 := by
  have := u.isLt
  unfold s16
  split <;> omega

end Machine

end Sys2Proof
end

