-- ==== Sys2Proof/Laws/State.lean ====
section
/-! SUPPORT. One lemma per field per update of the state, so that no later proof unfolds a record update. -/

namespace Sys2Proof.Machine.State

@[simp] theorem emit_cursor (r : OutRec) (s : State) : (emit r s).cursor = s.cursor := rfl
@[simp] theorem emit_status (r : OutRec) (s : State) : (emit r s).status = s.status := rfl
@[simp] theorem emit_out (r : OutRec) (s : State) : (emit r s).out = s.out ++ [r] := rfl
@[simp] theorem emit_buf (r : OutRec) (s : State) : (emit r s).buf = s.buf := rfl

@[simp] theorem setCursor_cursor (v : Nat) (s : State) : (setCursor v s).cursor = v := rfl
@[simp] theorem setCursor_status (v : Nat) (s : State) : (setCursor v s).status = s.status := rfl
@[simp] theorem setCursor_out (v : Nat) (s : State) : (setCursor v s).out = s.out := rfl
@[simp] theorem setCursor_buf (v : Nat) (s : State) : (setCursor v s).buf = s.buf := rfl

@[simp] theorem setStatus_cursor (v : Status) (s : State) : (setStatus v s).cursor = s.cursor := rfl
@[simp] theorem setStatus_status (v : Status) (s : State) : (setStatus v s).status = v := rfl
@[simp] theorem setStatus_out (v : Status) (s : State) : (setStatus v s).out = s.out := rfl
@[simp] theorem setStatus_buf (v : Status) (s : State) : (setStatus v s).buf = s.buf := rfl

@[simp] theorem setBuf_cursor (m : Memory) (s : State) : (setBuf m s).cursor = s.cursor := rfl
@[simp] theorem setBuf_status (m : Memory) (s : State) : (setBuf m s).status = s.status := rfl
@[simp] theorem setBuf_out (m : Memory) (s : State) : (setBuf m s).out = s.out := rfl
@[simp] theorem setBuf_buf (m : Memory) (s : State) : (setBuf m s).buf = m := rfl

@[simp] theorem retire_cursor (i : DecodedInstruction) (s : State) :
    (retire i s).cursor = s.cursor + i.bytesConsumed := rfl
@[simp] theorem retire_status (i : DecodedInstruction) (s : State) : (retire i s).status = s.status := rfl
@[simp] theorem retire_out (i : DecodedInstruction) (s : State) :
    (retire i s).out = s.out ++ [.instr s.cursor i] := rfl
@[simp] theorem retire_buf (i : DecodedInstruction) (s : State) : (retire i s).buf = s.buf := rfl

@[simp] theorem finish_cursor (s : State) : (finish s).cursor = s.cursor := rfl
@[simp] theorem finish_status (s : State) : (finish s).status = .done := rfl
@[simp] theorem finish_out (s : State) : (finish s).out = s.out := rfl
@[simp] theorem finish_buf (s : State) : (finish s).buf = s.buf := rfl

@[simp] theorem raise_buf (c : Cause) (s : State) : (raise c s).buf = s.buf := by cases c <;> rfl
@[simp] theorem raise_unrecognized_cursor (b : Byte) (s : State) :
    (raise (.unrecognized b) s).cursor = s.cursor + 1 := rfl
@[simp] theorem raise_unrecognized_status (b : Byte) (s : State) :
    (raise (.unrecognized b) s).status = s.status := rfl
@[simp] theorem raise_unrecognized_out (b : Byte) (s : State) :
    (raise (.unrecognized b) s).out = s.out ++ [.unrec s.cursor b] := rfl
@[simp] theorem raise_truncated_cursor (b : Byte) (n : Nat) (s : State) :
    (raise (.truncated b n) s).cursor = s.cursor := rfl
@[simp] theorem raise_truncated_status (b : Byte) (n : Nat) (s : State) :
    (raise (.truncated b n) s).status = .trunc := rfl
@[simp] theorem raise_truncated_out (b : Byte) (n : Nat) (s : State) :
    (raise (.truncated b n) s).out = s.out ++ [.trunc s.cursor b n] := rfl

@[simp] theorem load_cursor (bs : List Byte) : (load bs).cursor = 0 := rfl
@[simp] theorem load_status (bs : List Byte) : (load bs).status = .run := rfl
@[simp] theorem load_out (bs : List Byte) : (load bs).out = [] := rfl
@[simp] theorem load_buf (bs : List Byte) : (load bs).buf = Memory.ofBytes bs := rfl

end Sys2Proof.Machine.State
end

