-- ==== Sys2Proof/Laws/Memory.lean ====
section
/-! SUPPORT. The buffer: what loading and placing give, what reads of it give, and that its operations keep the
canonical form. -/

namespace Sys2Proof.Machine

namespace Memory

@[simp] theorem size_nil : size [] = 0 := rfl

@[simp] theorem cellsFrom_length (a : Nat) (bs : List Byte) : (cellsFrom a bs).length = bs.length := by
  induction bs generalizing a with
  | nil => rfl
  | cons b bs ih => simp [cellsFrom, ih]

@[simp] theorem cellsFrom_offsets (a : Nat) (bs : List Byte) :
    (cellsFrom a bs).map (·.1) = List.range' a bs.length := by
  induction bs generalizing a with
  | nil => rfl
  | cons b bs ih => simp [cellsFrom, ih, List.range'_succ]

@[simp] theorem cellsFrom_bytes (a : Nat) (bs : List Byte) : (cellsFrom a bs).map (·.2) = bs := by
  induction bs generalizing a with
  | nil => rfl
  | cons b bs ih => simp [cellsFrom, ih]

@[simp] theorem ofBytes_size (bs : List Byte) : (ofBytes bs).size = bs.length := cellsFrom_length 0 bs

@[simp] theorem ofBytes_bytes (bs : List Byte) : (ofBytes bs).bytes = bs := cellsFrom_bytes 0 bs

/-- Loading a buffer gives the canonical form. -/
theorem ofBytes_wf (bs : List Byte) : (ofBytes bs).wf = true := by
  simp [wf, ofBytes, size, List.range_eq_range']

/-- Placing bytes gives the canonical form, whatever was there. -/
theorem placeAt_wf (m : Memory) (a : Nat) (bs : List Byte) : (m.placeAt a bs).wf = true := ofBytes_wf _

theorem reset_wf : State.reset.buf.wf = true := rfl

/-- A buffer in canonical form is its bytes, loaded: equal contents are equal data. -/
theorem wf_eq_ofBytes {m : Memory} (h : m.wf = true) : m = ofBytes m.bytes := by
  have h1 : m.map (·.1) = List.range' 0 m.length := by
    simpa [wf, size, List.range_eq_range'] using h
  suffices ∀ (m : Memory) (a : Nat), m.map (·.1) = List.range' a m.length → m = cellsFrom a (m.map (·.2)) from
    this m 0 h1
  intro m
  induction m with
  | nil => intro a _; rfl
  | cons c m ih =>
    intro a hm
    simp only [List.map_cons, List.length_cons, List.range'_succ, List.cons.injEq] at hm
    rw [List.map_cons, cellsFrom, ← ih (a + 1) hm.2, ← hm.1]

/-- The offsets of a canonical buffer rise strictly. -/
theorem wf_rising {m : Memory} (h : m.wf = true) : (m.map (·.1)).Pairwise (· < ·) := by
  have h1 : m.map (·.1) = List.range m.size := by simpa [wf] using h
  rw [h1]
  exact List.pairwise_lt_range

theorem cellsFrom_read (a : Nat) (bs : List Byte) (k : Nat) :
    read (cellsFrom a bs) k = if a ≤ k then bs[k - a]? else none := by
  induction bs generalizing a with
  | nil => simp [cellsFrom, read, unlisted]
  | cons b bs ih =>
    have hk : read (cellsFrom a (b :: bs)) k = if a = k then some b else read (cellsFrom (a + 1) bs) k := by
      by_cases hak : a = k <;> simp [cellsFrom, read, hak]
    rw [hk, ih]
    by_cases hak : a = k
    · simp [hak]
    · by_cases hle : a ≤ k
      · have h1 : a + 1 ≤ k := by omega
        have h2 : k - a = (k - (a + 1)) + 1 := by omega
        simp [hak, hle, h1, h2]
      · have h1 : ¬ a + 1 ≤ k := by omega
        simp [hak, hle, h1]

/-- A loaded buffer reads as the list of its bytes. -/
@[simp] theorem ofBytes_read (bs : List Byte) (k : Nat) : (ofBytes bs).read k = bs[k]? := by
  simp [ofBytes, cellsFrom_read]

/-- What a successful read of `n` bytes is: every one of them, in order. -/
theorem readRange_eq_some {m : Memory} {a n : Nat} {bs : List Byte} :
    m.readRange a n = some bs ↔ bs.length = n ∧ ∀ i, i < n → m.read (a + i) = bs[i]? := by
  induction n generalizing a bs with
  | zero => cases bs <;> simp [readRange]
  | succ n ih =>
    constructor
    · intro h
      rw [readRange] at h
      split at h
      next b bs' hb hbs =>
        cases h
        obtain ⟨hl, hr⟩ := ih.1 hbs
        refine ⟨by simp [hl], fun i hi => ?_⟩
        cases i with
        | zero => simpa using hb
        | succ i =>
          have := hr i (by omega)
          rw [show a + (i + 1) = a + 1 + i by omega]
          simpa using this
      · cases h
    · rintro ⟨hl, hr⟩
      cases bs with
      | nil => simp at hl
      | cons b bs =>
        have h0 : m.read a = some b := by simpa using hr 0 (by omega)
        have h1 : m.readRange (a + 1) n = some bs := ih.2 ⟨by simpa using hl, fun i hi => by
          have := hr (i + 1) (by omega)
          rw [show a + 1 + i = a + (i + 1) by omega]
          simpa using this⟩
        simp [readRange, h0, h1]

/-- Within a loaded buffer, a read of `n` bytes is a piece of the list. -/
theorem ofBytes_readRange (bs : List Byte) {a n : Nat} (h : a + n ≤ bs.length) :
    (ofBytes bs).readRange a n = some ((bs.drop a).take n) := by
  rw [readRange_eq_some]
  refine ⟨by simp; omega, fun i hi => ?_⟩
  simp [hi]

theorem holdsAt_iff {m : Memory} {a : Nat} {bs : List Byte} :
    m.holdsAt a bs = true ↔ ∀ i, i < bs.length → m.read (a + i) = bs[i]? := by
  simp [holdsAt, readRange_eq_some]

end Memory

/-- In a canonical buffer with the cursor within it, the window is the next (at most six) bytes. -/
theorem State.window_eq {s : State} (hw : s.buf.wf = true) (hc : s.cursor ≤ s.buf.size) :
    s.window = some ((s.buf.bytes.drop s.cursor).take Config.windowBytes) := by
  have hb : s.buf = Memory.ofBytes s.buf.bytes := Memory.wf_eq_ofBytes hw
  have hl : s.buf.bytes.length = s.buf.size := by simp [Memory.bytes, Memory.size]
  have hr : s.window = (Memory.ofBytes s.buf.bytes).readRange s.cursor s.avail := by
    rw [← hb]; rfl
  have ha : s.avail = min Config.windowBytes (s.buf.bytes.length - s.cursor) := by rw [hl]; rfl
  rw [hr, Memory.ofBytes_readRange _ (by rw [ha]; omega), ha]
  congr 1
  rw [← List.length_drop, ← List.take_eq_take_min]

/-- A window has `avail` bytes. -/
theorem State.window_len {s : State} {win : List Byte} (hw : s.window = some win) : win.length = s.avail :=
  (Memory.readRange_eq_some.1 hw).1

/-- Where the buffer holds bytes at the cursor, the window begins with them. -/
theorem State.window_of_holds {s : State} {bs : List Byte} (hb : s.buf.wf = true ∧ s.cursor ≤ s.buf.size) (h : s.buf.holdsAt s.cursor bs = true)
    (hl : bs.length ≤ 6) :
    ∃ rest, s.window = some (bs ++ rest) ∧ s.cursor + bs.length ≤ s.buf.size := by
  obtain ⟨hwf, hc⟩ := hb
  have hbuf := Memory.wf_eq_ofBytes hwf
  have hsz : s.buf.bytes.length = s.buf.size := by simp [Memory.bytes, Memory.size]
  rw [Memory.holdsAt_iff] at h
  have key : bs <+: s.buf.bytes.drop s.cursor := by
    rw [List.prefix_iff_getElem?]
    intro i hi
    have := h i hi
    rw [hbuf, Memory.ofBytes_read] at this
    rw [List.getElem?_drop, this]; simp [hi]
  obtain ⟨rest, hrest⟩ := key
  refine ⟨rest.take (6 - bs.length), ?_, ?_⟩
  · rw [State.window_eq hwf hc, ← hrest, List.take_append]
    rw [show Config.windowBytes = 6 from rfl, List.take_of_length_le hl]
  · have := congrArg List.length hrest
    simp at this; omega

end Sys2Proof.Machine
end

