-- ==== Sys2Proof/Laws/Dec.lean ====
section
/-! SUPPORT. DEC on windows of one byte and of more, and the checks of the invariant on a longer log. -/

namespace Sys2Proof.Machine

theorem dec_one (off : Nat) {b0 : Byte} (h : classify b0 ≠ .unrec) :
    dec off [b0] = some ⟨classify b0, .trunc off b0 1, 0⟩ := by
  simp only [dec]
  cases hk : classify b0 <;> simp_all [decTruncated]

theorem dec_two (off : Nat) {b0 : Byte} (b1 t) (h : classify b0 ≠ .unrec) : dec off (b0 :: b1 :: t) =
   if (b0 :: b1 :: t).length < need b0 b1 then some ⟨classify b0, .trunc off b0 (b0 :: b1 :: t).length, 0⟩
      else (selectExtractor (classify b0) (b0 :: b1 :: t)).map fun ins => ⟨classify b0, .instr off ins, need b0 b1⟩ := by
  simp only [dec]
  cases hk : classify b0 <;> simp_all [decTruncated]

/-- What DEC gives at the cursor is what it gives on the window. -/
theorem decAt_window {s : State} : decAt s.buf s.cursor = (s.window).bind (dec s.cursor) := by
  unfold decAt State.window State.avail
  split <;> rename_i h <;> rw [h] <;> rfl

/-- A record that starts where the log ends lengthens the tiling by its length. -/
theorem tile_append (a m e : Nat) (l : List OutRec) (r : OutRec) (h : tile a l m = true) (h2 : r.off = m)
    (h3 : m + r.len = e) : tile a (l ++ [r]) e = true := by
  induction l generalizing a with
  | nil => simp_all [tile]
  | cons x l ih =>
    simp only [tile, Bool.and_eq_true, List.cons_append] at h ⊢
    exact ⟨h.1, ih _ h.2⟩

end Sys2Proof.Machine
end

