-- ==== Sys2Proof/Laws/Decode.lean ====
section
/-! SUPPORT. When the decoder gives no form, and the bounds of `Need`. -/

namespace Sys2Proof

theorem mod_cases (m : BitVec 2) : m = 0#2 ∨ m = 1#2 ∨ m = 2#2 ∨ m = 3#2 := by
  revert m; decide

theorem take8_none (t : List Byte) : take8 t = none ↔ t.length < 1 := by
  cases t <;> simp [take8]
theorem take16_none (t : List Byte) : take16 t = none ↔ t.length < 2 := by
  match t with
  | [] => simp
  | [_] => simp
  | _ :: _ :: t => simp [take16]

theorem bindTake8_none {f : Byte × List Byte → Option Instr} {k : Nat} (hf : ∀ b t, f (b, t) = none ↔ t.length < k)
   (t : List Byte) : (take8 t).bind f = none ↔ t.length < k + 1 := by
  cases t with
  | nil => simp
  | cons b t => simp [take8, hf]

theorem bindTake16_none {f : Word × List Byte → Option Instr} {k : Nat} (hf : ∀ b t, f (b, t) = none ↔ t.length < k)
   (t : List Byte) : (take16 t).bind f = none ↔ t.length < k + 2 := by
  match t with
  | [] => simp
  | [_] => simp
  | _ :: _ :: t => simp [take16, hf]

/-- With both of its first bytes present, a unit gives no form exactly when fewer than `Need` bytes are there. -/
theorem instrOf_none (b0 b1 : Byte) (t : List Byte) : instrOf b0 (b1 :: t) = none ↔ t.length + 2 < need b0 b1 := by
  unfold instrOf need
  split
  all_goals (try simp only [instrRm, instrIr, instrIm, instrIm8, instrIm16, instrAm, instrMa, dispLen, take8_cons, Option.bind_eq_bind, Option.bind_some])
  next =>
    rcases mod_cases (fieldMod b1) with h | h | h | h <;> simp only [h]
    · split
      · rw [bindTake16_none (k := 0) (by simp)]; omega
      · simp
    · rw [bindTake8_none (k := 0) (by simp)]; omega
    · rw [bindTake16_none (k := 0) (by simp)]; omega
    · simp
  next =>
    split
    · cases t <;> simp
    · simp
  next =>
    cases fieldW b0 <;> rcases mod_cases (fieldMod b1) with h | h | h | h <;> simp only [h, if_true, if_false, Bool.false_eq_true]
    · split
      · rw [bindTake16_none (k := 1) (fun a t => bindTake8_none (k := 0) (by simp) t)]; omega
      · rw [bindTake8_none (k := 0) (by simp)]; omega
    · rw [bindTake8_none (k := 1) (fun a t => bindTake8_none (k := 0) (by simp) t)]; omega
    · rw [bindTake16_none (k := 1) (fun a t => bindTake8_none (k := 0) (by simp) t)]; omega
    · rw [bindTake8_none (k := 0) (by simp)]; omega
    · split
      · rw [bindTake16_none (k := 2) (fun a t => bindTake16_none (k := 0) (by simp) t)]; omega
      · rw [bindTake16_none (k := 0) (by simp)]; omega
    · rw [bindTake8_none (k := 2) (fun a t => bindTake16_none (k := 0) (by simp) t)]; omega
    · rw [bindTake16_none (k := 2) (fun a t => bindTake16_none (k := 0) (by simp) t)]; omega
    · rw [bindTake16_none (k := 0) (by simp)]; omega
  next => cases t <;> simp
  next => cases t <;> simp
  next => simp

theorem instrOf_nil (b0 : Byte) : instrOf b0 [] = none ↔ classify b0 ≠ .unrec := by
  unfold instrOf
  split <;> rename_i h <;> simp [h, instrRm, instrIr, instrIm, instrAm, instrMa]

/-- When the decoder rejects a window as truncated: its first byte is recognized, and the second byte or some byte of
`Need` is absent. -/
theorem decode_truncated_iff (win : List Byte) (b0 : Byte) (n : Nat) :
    decode win = .reject (.truncated b0 n) ↔ n = win.length ∧ ∃ t, win = b0 :: t ∧ classify b0 ≠ .unrec ∧
      (t = [] ∨ ∃ b1 t', t = b1 :: t' ∧ win.length < need b0 b1) := by
  cases win with
  | nil => simp [decode]
  | cons c t =>
    simp only [decode]
    cases hi : instrOf c t with
    | some i =>
      simp only [reduceCtorEq, false_iff, not_and]
      rintro _ ⟨t', heq, hc, ht⟩
      cases heq
      rcases ht with rfl | ⟨b1, t', rfl, hl⟩
      · rw [(instrOf_nil b0).2 hc] at hi; cases hi
      · rw [(instrOf_none b0 b1 t').2 (by simpa using hl)] at hi; cases hi
    | none =>
      simp only [Decoded.reject.injEq, Reject.truncated.injEq]
      constructor
      · rintro ⟨rfl, rfl⟩
        refine ⟨by simp, t, rfl, ?_, ?_⟩
        · intro hu; simp [instrOf, hu] at hi
        · cases t with
          | nil => exact .inl rfl
          | cons b1 t' => exact .inr ⟨b1, t', rfl, by simpa using (instrOf_none c b1 t').1 hi⟩
      · rintro ⟨rfl, t', heq, _⟩
        cases heq
        simp

theorem need_le (b0 b1 : Byte) : need b0 b1 ≤ 6 := by
  have : dispLen (fieldMod b1) (fieldRm b1) ≤ 2 := by
    unfold dispLen; split <;> try split
    all_goals omega
  unfold need
  split <;> try split
  all_goals omega


theorem need_unrec {b0 : Byte} (b1) (h : classify b0 = .unrec) : need b0 b1 = 1 := by simp [need, h]
theorem need_ge {b0 : Byte} (b1) (h : classify b0 ≠ .unrec) : 2 ≤ need b0 b1 := by
  unfold need
  split <;> try split
  all_goals first | omega | contradiction

theorem decode_noByte {win : List Byte} : decode win = .reject .noByte ↔ win = [] := by
  cases win with
  | nil => simp [decode]
  | cons b t => simp only [decode]; split <;> simp

end Sys2Proof
end

