-- ==== Sys2Proof/Laws/Exec.lean ====
section
/-! SUPPORT. What a meaning can do, said once: every instruction form but one retires a decoded instruction of the
form's length; the `UNREC` form takes the unrecognized-opcode outcome. -/

namespace Sys2Proof.Machine

/-- The decoded instruction of a form, none for the `UNREC` form. -/
def retired : Instr → Option DecodedInstruction
  | .movRmRegRr d w reg rm => some (regRmMove d w reg (rmRegister w rm))
  | .movRmMem0 d w reg rm => some (regRmMove d w reg (rmPlain rm))
  | .movRmDirect d w reg addr => some (regRmMove d w reg (rmDirect addr))
  | .movRmMem8 d w reg rm disp => some (regRmMove d w reg (rmDisp8 rm disp))
  | .movRmMem16 d w reg rm disp => some (regRmMove d w reg (rmDisp16 rm disp))
  | .movImmReg8 reg imm => some (immRegMove false reg (imm8 imm))
  | .movImmReg16 reg imm => some (immRegMove true reg (imm16 imm))
  | .movImmMemRr8 _ rm imm => some (immRmMove (rmRegister false rm) (imm8 imm))
  | .movImmMemRr16 _ rm imm => some (immRmMove (rmRegister true rm) (imm16 imm))
  | .movImmMem0_8 _ rm imm => some (immRmMove (rmPlain rm) (imm8 imm))
  | .movImmMem0_16 _ rm imm => some (immRmMove (rmPlain rm) (imm16 imm))
  | .movImmDirect8 _ addr imm => some (immRmMove (rmDirect addr) (imm8 imm))
  | .movImmDirect16 _ addr imm => some (immRmMove (rmDirect addr) (imm16 imm))
  | .movImmMem8_8 _ rm disp imm => some (immRmMove (rmDisp8 rm disp) (imm8 imm))
  | .movImmMem8_16 _ rm disp imm => some (immRmMove (rmDisp8 rm disp) (imm16 imm))
  | .movImmMem16_8 _ rm disp imm => some (immRmMove (rmDisp16 rm disp) (imm8 imm))
  | .movImmMem16_16 _ rm disp imm => some (immRmMove (rmDisp16 rm disp) (imm16 imm))
  | .movAccMem8 addr => some (accToMem false addr)
  | .movAccMem16 addr => some (accToMem true addr)
  | .movMemAcc8 addr => some (memToAcc false addr)
  | .movMemAcc16 addr => some (memToAcc true addr)
  | .unrec _ => none

/-- Everything `exec` can do. -/
theorem exec_cases (i : Instr) (s : State) :
    (∃ ins, retired i = some ins ∧ ins.bytesConsumed = i.length ∧ exec i s = .next (s.retire ins)) ∨
      (∃ b, i = .unrec b ∧ exec i s = .next (s.raise (.unrecognized b))) := by
  cases i
  case unrec b => exact .inr ⟨b, rfl, rfl⟩
  all_goals exact .inl ⟨_, rfl, rfl, rfl⟩

/-- A decoded instruction's length is 2 to 6. -/
theorem retired_length {i : Instr} {ins : DecodedInstruction} (h : retired i = some ins) :
    2 ≤ ins.bytesConsumed ∧ ins.bytesConsumed ≤ 6 := by
  cases i <;> simp only [retired, Option.some.injEq, reduceCtorEq] at h <;> subst h <;>
    simp [regRmMove, immRegMove, immRmMove, accToMem, memToAcc, rmRegister, rmPlain, rmDirect, rmDisp8, rmDisp16, imm8,
      imm16]

/-- Every form has at least one byte and at most six. -/
theorem instr_length_range (i : Instr) : 1 ≤ i.length ∧ i.length ≤ 6 := by
  cases i <;> simp [Instr.length]

end Sys2Proof.Machine
end

