-- ==== Sys2Proof/Laws/PerInstr.lean ====
section
/-! SUPPORT. Statements made for every instruction form, one lemma per constructor. Family `TableRow`: the form has a
row in the opcode table that bears its mnemonic and the byte count of its encoding. -/

namespace Sys2Proof.Laws.TableRow

def Statement (i : Instr) : Prop :=
  (instructionRows ++ [unrecRow]).any (fun r => r.mnemonic == i.mnemonic && r.length == (encode i).length) = true

theorem movRmRegRr (d w : Bool) (reg rm : Code) : Statement (.movRmRegRr d w reg rm) := by rfl
theorem movRmMem0 (d w : Bool) (reg rm : Code) : Statement (.movRmMem0 d w reg rm) := by rfl
theorem movRmDirect (d w : Bool) (reg : Code) (addr : Word) : Statement (.movRmDirect d w reg addr) := by rfl
theorem movRmMem8 (d w : Bool) (reg rm : Code) (disp : Byte) : Statement (.movRmMem8 d w reg rm disp) := by rfl
theorem movRmMem16 (d w : Bool) (reg rm : Code) (disp : Word) : Statement (.movRmMem16 d w reg rm disp) := by rfl
theorem movImmReg8 (reg : Code) (imm : Byte) : Statement (.movImmReg8 reg imm) := by rfl
theorem movImmReg16 (reg : Code) (imm : Word) : Statement (.movImmReg16 reg imm) := by rfl
theorem movImmMemRr8 (x rm : Code) (imm : Byte) : Statement (.movImmMemRr8 x rm imm) := by rfl
theorem movImmMemRr16 (x rm : Code) (imm : Word) : Statement (.movImmMemRr16 x rm imm) := by rfl
theorem movImmMem0_8 (x rm : Code) (imm : Byte) : Statement (.movImmMem0_8 x rm imm) := by rfl
theorem movImmMem0_16 (x rm : Code) (imm : Word) : Statement (.movImmMem0_16 x rm imm) := by rfl
theorem movImmDirect8 (x : Code) (addr : Word) (imm : Byte) : Statement (.movImmDirect8 x addr imm) := by rfl
theorem movImmDirect16 (x : Code) (addr imm : Word) : Statement (.movImmDirect16 x addr imm) := by rfl
theorem movImmMem8_8 (x rm : Code) (disp imm : Byte) : Statement (.movImmMem8_8 x rm disp imm) := by rfl
theorem movImmMem8_16 (x rm : Code) (disp : Byte) (imm : Word) : Statement (.movImmMem8_16 x rm disp imm) := by rfl
theorem movImmMem16_8 (x rm : Code) (disp : Word) (imm : Byte) : Statement (.movImmMem16_8 x rm disp imm) := by rfl
theorem movImmMem16_16 (x rm : Code) (disp imm : Word) : Statement (.movImmMem16_16 x rm disp imm) := by rfl
theorem movAccMem8 (addr : Word) : Statement (.movAccMem8 addr) := by rfl
theorem movAccMem16 (addr : Word) : Statement (.movAccMem16 addr) := by rfl
theorem movMemAcc8 (addr : Word) : Statement (.movMemAcc8 addr) := by rfl
theorem movMemAcc16 (addr : Word) : Statement (.movMemAcc16 addr) := by rfl
theorem unrec (b : Byte) : Statement (.unrec b) := by rfl

end Sys2Proof.Laws.TableRow
end

