-- ==== Sys2Proof/Laws/Step.lean ====
section
/-! SUPPORT. What a step can do, said once, and when it runs an instruction form. -/

namespace Sys2Proof.Machine

/-- Everything a step that answers a next state can have done. -/
theorem step_cases {s t : State} (h : step s = .next t) :
    s.status = .run ∧
      ((s.cursor = s.buf.size ∧ t = s.finish) ∨
        (s.cursor < s.buf.size ∧ ∃ win, s.window = some win ∧
          ((∃ i, decode win = .instr i ∧ exec i s = .next t) ∨
            ∃ b0 n, decode win = .reject (.truncated b0 n) ∧ t = s.raise (.truncated b0 n)))) := by
  unfold step seqStep at h
  split at h
  next hrun =>
    refine ⟨hrun, ?_⟩
    unfold runStep at h
    split at h
    next hc => cases h; exact .inl ⟨hc, rfl⟩
    next hc =>
      split at h
      · cases h
      next hlt =>
        split at h
        next win hwin =>
          refine .inr ⟨by omega, win, hwin, ?_⟩
          unfold runDecoded at h
          split at h
          next i hi => exact .inl ⟨i, hi, h⟩
          next b0 n hn => cases h; exact .inr ⟨b0, n, hn, rfl⟩
          · cases h
        · cases h
  · cases h
  · cases h

/-- In status `RUN` before the end of the buffer, the step is what the sequencer does with the decoder's answer. -/
theorem step_of_window {s : State} {win : List Byte} (hr : s.status = .run) (hc : s.cursor < s.buf.size)
    (hw : s.window = some win) : step s = runDecoded (decode win) s := by
  have h1 : s.cursor ≠ s.buf.size := by omega
  have h2 : ¬ s.buf.size < s.cursor := by omega
  simp [step, seqStep, runStep, hr, h1, h2, hw]

theorem step_at_end {s : State} (hr : s.status = .run) (hc : s.cursor = s.buf.size) : step s = .next s.finish := by
  simp [step, seqStep, runStep, hr, hc]

theorem step_done {s : State} (h : s.status = .done) : step s = .fault .runIsDone := by simp [step, seqStep, h]

theorem step_trunc {s : State} (h : s.status = .trunc) : step s = .fault .runIsTruncated := by
  simp [step, seqStep, h]

end Sys2Proof.Machine
end

