-- ==== Sys2Proof/Laws/Table.lean ====
section
/-! SUPPORT. Matching an opcode-table row over `b0 * 256 + b1` is matching each of the two bytes. -/

namespace Sys2Proof

/-- The part of a row's match that tests `b0`. -/
def TableRow.hitsFirst (r : TableRow) (b0 : Byte) : Bool := b0 &&& highByte r.mask == highByte r.value

/-- The part of a row's match that tests `b1`. -/
def TableRow.hitsSecond (r : TableRow) (b1 : Byte) : Bool :=
  b1 &&& lowByte r.mask == lowByte r.value && r.exclude.all fun e => b1 &&& lowByte e.2 != lowByte e.1

theorem append_bytes (v : Word) : highByte v ++ lowByte v = v := by
  apply BitVec.eq_of_toNat_eq
  rw [BitVec.toNat_append, highByte_toNat, lowByte_toNat, ← Nat.shiftLeft_add_eq_or_of_lt (by omega), Nat.shiftLeft_eq]
  omega

theorem append_inj (a b c d : Byte) : a ++ b = c ++ d ↔ a = c ∧ b = d := by
  constructor
  · intro h
    have h1 := congrArg BitVec.toNat h
    rw [BitVec.toNat_append, BitVec.toNat_append, ← Nat.shiftLeft_add_eq_or_of_lt b.isLt, ← Nat.shiftLeft_add_eq_or_of_lt d.isLt, Nat.shiftLeft_eq, Nat.shiftLeft_eq] at h1
    have := a.isLt; have := b.isLt; have := c.isLt; have := d.isLt
    exact ⟨BitVec.eq_of_toNat_eq (by omega), BitVec.eq_of_toNat_eq (by omega)⟩
  · rintro ⟨rfl, rfl⟩; rfl

theorem and_append (b0 b1 : Byte) (m : Word) : (b0 ++ b1 : Word) &&& m = (b0 &&& highByte m) ++ (b1 &&& lowByte m) := by
  conv_lhs => rw [← append_bytes m]
  ext i hi
  simp only [BitVec.getElem_and, BitVec.getElem_append]
  split <;> simp

theorem and_eq (b0 b1 : Byte) (m v : Word) : ((b0 ++ b1 : Word) &&& m == v) = ((b0 &&& highByte m == highByte v) && (b1 &&& lowByte m == lowByte v)) := by
  rw [and_append]
  conv_lhs => rw [← append_bytes v]
  rw [Bool.eq_iff_iff]
  simp [append_inj]

theorem hits_split (r : TableRow) (h : ∀ e ∈ r.exclude, highByte e.1 = 0#8 ∧ highByte e.2 = 0#8) (b0 b1 : Byte) :
    r.hits (b0 ++ b1) = (r.hitsFirst b0 && r.hitsSecond b1) := by
  have key : (r.exclude.all fun e => (b0 ++ b1 : Word) &&& e.2 != e.1) = r.exclude.all fun e => b1 &&& lowByte e.2 != lowByte e.1 := by
    rw [Bool.eq_iff_iff, List.all_eq_true, List.all_eq_true]
    refine forall₂_congr fun e he => ?_
    have := h e he
    simp only [bne, and_eq, this]
    simp
  simp only [TableRow.hits, TableRow.hitsFirst, TableRow.hitsSecond, key, and_eq, Bool.and_assoc]

theorem excl : ∀ r ∈ instructionRows, ∀ e ∈ r.exclude, highByte e.1 = 0#8 ∧ highByte e.2 = 0#8 := by
  have : (instructionRows.all fun r => r.exclude.all fun e => highByte e.1 == 0#8 && highByte e.2 == 0#8) = true := by decide +kernel
  simpa [List.all_eq_true] using this

end Sys2Proof
end

