-- ==== Sys2Proof/Tests/Slice0.lean ====
section
/-! SUPPORT. Tests and witnesses. Expected values are the spec's own: the encodings of spec/opcode_table.json, written
out bit by bit, and the vectors of 95_test_vectors.md, named beside each test. A theorem `witness_X` shows a concrete
state and operands that meet the hypotheses of the statement `Obligations.X`, clause by clause. -/

namespace Sys2Proof.Tests

open Sys2Proof.Machine

/-- The records, cursor and status after one step on a loaded buffer. -/
def after (bs : List Byte) : Option (List OutRec × Nat × Status) :=
  match step (State.load bs) with
  | .next t => some (t.out, t.cursor, t.status)
  | .fault _ => none
  | .refused _ => none

/-- The lines of a run on a buffer, with the spec's default diagnostic texts. -/
def lines (bs : List Byte) : Option (List String) := observeText defaultTexts bs

/-- The record, cursor and status that one decoded unit at offset 0 leaves. -/
def unit (dst src : Operand) (n : Nat) : Option (List OutRec × Nat × Status) :=
  some ([.instr 0 ⟨.mov, dst, src, n⟩], n, .run)

def r8 (c : Code) : Operand := .register false c
def r16 (c : Code) : Operand := .register true c

/-! ## WellFormed: one ill-formed term for each check -/

theorem test_wf_refuses_mem0_direct : (Instr.movRmMem0 true true 0b000#3 0b110#3).wf = false := by decide
theorem test_wf_refuses_imm_mem0_8_direct : (Instr.movImmMem0_8 0b000#3 0b110#3 0x07#8).wf = false := by decide
theorem test_wf_refuses_imm_mem0_16_direct : (Instr.movImmMem0_16 0b000#3 0b110#3 0x0007#16).wf = false := by decide
theorem test_wf_refuses_recognized_unrec : (Instr.unrec 0x88#8).wf = false := by decide

/-! ## Classifier: the boundary bytes V-CL-1 to V-CL-23 -/

theorem test_classify_boundaries :
    ([0x87#8, 0x88#8, 0x8B#8, 0x8C#8, 0x8E#8, 0x9F#8, 0xA0#8, 0xA1#8, 0xA2#8, 0xA3#8, 0xA4#8, 0xAF#8] : List Byte).map
      classify = [.unrec, .rm, .rm, .unrec, .unrec, .unrec, .ma, .ma, .am, .am, .unrec, .unrec] := by decide
theorem test_classify_boundaries_2 :
    ([0xB0#8, 0xB7#8, 0xB8#8, 0xBF#8, 0xC0#8, 0xC5#8, 0xC6#8, 0xC7#8, 0xC8#8, 0x00#8, 0xFF#8] : List Byte).map
      classify = [.ir, .ir, .ir, .ir, .unrec, .unrec, .im, .im, .unrec, .unrec, .unrec] := by decide

/-! ## Decoding: a word of each form, written out from its encoding in the opcode table -/

theorem test_decode_movRmRegRr :
    decode [0b10001000#8, 0b11100001#8] = .instr (.movRmRegRr false false 0b100#3 0b001#3) := by decide
theorem test_decode_movRmMem0 :
    decode [0b10001010#8, 0b00110100#8] = .instr (.movRmMem0 true false 0b110#3 0b100#3) := by decide
theorem test_decode_movRmDirect :
    decode [0b10001001#8, 0b00011110#8, 0b11111011#8, 0b00001001#8] =
      .instr (.movRmDirect false true 0b011#3 0b0000100111111011#16) := by decide
theorem test_decode_movRmMem8 :
    decode [0b10001011#8, 0b01010110#8, 0b10000000#8] =
      .instr (.movRmMem8 true true 0b010#3 0b110#3 0b10000000#8) := by decide
theorem test_decode_movRmMem16 :
    decode [0b10001001#8, 0b10001111#8, 0b00101100#8, 0b00000001#8] =
      .instr (.movRmMem16 false true 0b001#3 0b111#3 0b0000000100101100#16) := by decide
theorem test_decode_movImmReg8 :
    decode [0b10110001#8, 0b11110100#8] = .instr (.movImmReg8 0b001#3 0b11110100#8) := by decide
theorem test_decode_movImmReg16 :
    decode [0b10111010#8, 0b01101100#8, 0b00001111#8] =
      .instr (.movImmReg16 0b010#3 0b0000111101101100#16) := by decide
theorem test_decode_movImmMemRr8 :
    decode [0b11000110#8, 0b11000011#8, 0b10000000#8] =
      .instr (.movImmMemRr8 0b000#3 0b011#3 0b10000000#8) := by decide
theorem test_decode_movImmMemRr16 :
    decode [0b11000111#8, 0b11101000#8, 0b00000101#8, 0b00000001#8] =
      .instr (.movImmMemRr16 0b101#3 0b000#3 0b0000000100000101#16) := by decide
theorem test_decode_movImmMem0_8 :
    decode [0b11000110#8, 0b00000011#8, 0b00000111#8] =
      .instr (.movImmMem0_8 0b000#3 0b011#3 0b00000111#8) := by decide
theorem test_decode_movImmMem0_16 :
    decode [0b11000111#8, 0b00000111#8, 0b00101100#8, 0b00000001#8] =
      .instr (.movImmMem0_16 0b000#3 0b111#3 0b0000000100101100#16) := by decide
theorem test_decode_movImmDirect8 :
    decode [0b11000110#8, 0b00000110#8, 0b11111011#8, 0b00001001#8, 0b00000111#8] =
      .instr (.movImmDirect8 0b000#3 0b0000100111111011#16 0b00000111#8) := by decide
theorem test_decode_movImmDirect16 :
    decode [0b11000111#8, 0b00000110#8, 0b00000001#8, 0b10000000#8, 0b11111111#8, 0b01111111#8] =
      .instr (.movImmDirect16 0b000#3 0b1000000000000001#16 0b0111111111111111#16) := by decide
theorem test_decode_movImmMem8_8 :
    decode [0b11000110#8, 0b01111110#8, 0b00000010#8, 0b00000111#8] =
      .instr (.movImmMem8_8 0b111#3 0b110#3 0b00000010#8 0b00000111#8) := by decide
theorem test_decode_movImmMem8_16 :
    decode [0b11000111#8, 0b01000110#8, 0b00000000#8, 0b11111110#8, 0b11111111#8] =
      .instr (.movImmMem8_16 0b000#3 0b110#3 0b00000000#8 0b1111111111111110#16) := by decide
theorem test_decode_movImmMem16_8 :
    decode [0b11000110#8, 0b10000000#8, 0b00000001#8, 0b10000000#8, 0b10000010#8] =
      .instr (.movImmMem16_8 0b000#3 0b000#3 0b1000000000000001#16 0b10000010#8) := by decide
theorem test_decode_movImmMem16_16 :
    decode [0b11000111#8, 0b10000110#8, 0b00101100#8, 0b00000001#8, 0b00101011#8, 0b00000001#8] =
      .instr (.movImmMem16_16 0b000#3 0b110#3 0b0000000100101100#16 0b0000000100101011#16) := by decide
theorem test_decode_movAccMem8 :
    decode [0b10100010#8, 0b11111010#8, 0b00001001#8] = .instr (.movAccMem8 0b0000100111111010#16) := by decide
theorem test_decode_movAccMem16 :
    decode [0b10100011#8, 0b00001111#8, 0b10000000#8] = .instr (.movAccMem16 0b1000000000001111#16) := by decide
theorem test_decode_movMemAcc8 :
    decode [0b10100000#8, 0b11111011#8, 0b00001001#8] = .instr (.movMemAcc8 0b0000100111111011#16) := by decide
theorem test_decode_movMemAcc16 :
    decode [0b10100001#8, 0b00000110#8, 0b00000000#8] = .instr (.movMemAcc16 0b0000000000000110#16) := by decide
theorem test_decode_unrec : decode [0b10001100#8, 0b11000000#8] = .instr (.unrec 0b10001100#8) := by decide

/-! ## One step of each form: the vectors of 95_test_vectors.md -/

/-- V-RM-1. -/
theorem test_step_movRmRegRr : after [0x89#8, 0xD8#8] = unit (r16 0b000#3) (r16 0b011#3) 2 := by decide
/-- V-RM-7. -/
theorem test_step_movRmMem0 : after [0x88#8, 0x1A#8] = unit (.indexedMemory 0b010#3 none) (r8 0b011#3) 2 := by decide
/-- V-RM-13. -/
theorem test_step_movRmDirect :
    after [0x8A#8, 0x06#8, 0x00#8, 0x80#8] = unit (r8 0b000#3) (.directMemory (-32768)) 4 := by decide
/-- V-RM-15. -/
theorem test_step_movRmMem8 :
    after [0x88#8, 0x6E#8, 0xFB#8] = unit (.indexedMemory 0b110#3 (some (-5))) (r8 0b101#3) 3 := by decide
/-- V-RM-20. -/
theorem test_step_movRmMem16 :
    after [0x8B#8, 0x86#8, 0x00#8, 0x80#8] = unit (r16 0b000#3) (.indexedMemory 0b110#3 (some (-32768))) 4 := by decide
/-- V-IR-4. -/
theorem test_step_movImmReg8 : after [0xB0#8, 0x80#8] = unit (r8 0b000#3) (.immediate (-128) .byte) 2 := by decide
/-- V-IR-8. -/
theorem test_step_movImmReg16 :
    after [0xBA#8, 0x94#8, 0xF0#8] = unit (r16 0b010#3) (.immediate (-3948) .word) 3 := by decide
/-- V-IM-1. -/
theorem test_step_movImmMemRr8 :
    after [0xC6#8, 0xC3#8, 0x80#8] = unit (r8 0b011#3) (.immediate (-128) .byte) 3 := by decide
/-- V-IM-2. -/
theorem test_step_movImmMemRr16 :
    after [0xC7#8, 0xC0#8, 0x05#8, 0x00#8] = unit (r16 0b000#3) (.immediate 5 .word) 4 := by decide
/-- V-IM-3. -/
theorem test_step_movImmMem0_8 :
    after [0xC6#8, 0x03#8, 0x07#8] = unit (.indexedMemory 0b011#3 none) (.immediate 7 .byte) 3 := by decide
/-- V-IM-4. -/
theorem test_step_movImmMem0_16 :
    after [0xC7#8, 0x07#8, 0x2C#8, 0x01#8] = unit (.indexedMemory 0b111#3 none) (.immediate 300 .word) 4 := by decide
/-- V-IM-5. -/
theorem test_step_movImmDirect8 :
    after [0xC6#8, 0x06#8, 0xFB#8, 0x09#8, 0x07#8] = unit (.directMemory 2555) (.immediate 7 .byte) 5 := by decide
/-- V-IM-6. -/
theorem test_step_movImmDirect16 :
    after [0xC7#8, 0x06#8, 0x00#8, 0x80#8, 0xFF#8, 0xFF#8] =
      unit (.directMemory (-32768)) (.immediate (-1) .word) 6 := by decide
/-- V-IM-9. -/
theorem test_step_movImmMem8_8 :
    after [0xC6#8, 0x7E#8, 0x02#8, 0x07#8] =
      unit (.indexedMemory 0b110#3 (some 2)) (.immediate 7 .byte) 4 := by decide
/-- V-IM-8. -/
theorem test_step_movImmMem8_16 :
    after [0xC7#8, 0x46#8, 0x00#8, 0xFF#8, 0xFF#8] =
      unit (.indexedMemory 0b110#3 (some 0)) (.immediate (-1) .word) 5 := by decide
/-- V-IM-13. -/
theorem test_step_movImmMem16_8 :
    after [0xC6#8, 0x80#8, 0x00#8, 0x80#8, 0x80#8] =
      unit (.indexedMemory 0b000#3 (some (-32768))) (.immediate (-128) .byte) 5 := by decide
/-- V-IM-11. -/
theorem test_step_movImmMem16_16 :
    after [0xC7#8, 0x85#8, 0x85#8, 0x03#8, 0x5B#8, 0x01#8] =
      unit (.indexedMemory 0b101#3 (some 901)) (.immediate 347 .word) 6 := by decide
/-- V-AM-1. -/
theorem test_step_movAccMem8 : after [0xA2#8, 0xFA#8, 0x09#8] = unit (.directMemory 2554) (r8 0b000#3) 3 := by decide
/-- V-AM-4. -/
theorem test_step_movAccMem16 :
    after [0xA3#8, 0x00#8, 0x80#8] = unit (.directMemory (-32768)) (r16 0b000#3) 3 := by decide
/-- V-MA-2. -/
theorem test_step_movMemAcc8 : after [0xA0#8, 0xFF#8, 0xFF#8] = unit (r8 0b000#3) (.directMemory (-1)) 3 := by decide
/-- `A1 06 00` is `mov ax, [6]`: no byte of this shape is a ModRM byte. -/
theorem test_step_movMemAcc16 : after [0xA1#8, 0x06#8, 0x00#8] = unit (r16 0b000#3) (.directMemory 6) 3 := by decide
/-- V-CL-R1, its first unit. -/
theorem test_step_unrec : after [0xC8#8, 0x9F#8, 0xA4#8] = some ([.unrec 0 0xC8#8], 1, .run) := by decide

/-- V-TR-1 to V-TR-7: the first step of each. -/
theorem test_truncations :
    ([[0x89#8], [0x89#8, 0x06#8, 0x00#8], [0xC7#8, 0x86#8, 0x2C#8, 0x01#8, 0x2B#8], [0xB8#8, 0x05#8], [0xB0#8],
      [0xA1#8, 0xFB#8], [0xC6#8, 0x46#8, 0xFB#8]] : List (List Byte)).map after =
      [some ([.trunc 0 0x89#8 1], 0, .trunc), some ([.trunc 0 0x89#8 3], 0, .trunc),
       some ([.trunc 0 0xC7#8 5], 0, .trunc), some ([.trunc 0 0xB8#8 2], 0, .trunc),
       some ([.trunc 0 0xB0#8 1], 0, .trunc), some ([.trunc 0 0xA1#8 2], 0, .trunc),
       some ([.trunc 0 0xC6#8 3], 0, .trunc)] := by decide

/-- V-RS-1: the empty buffer is `DONE` after one step, with no record. -/
theorem test_empty_buffer : after [] = some ([], 0, .done) := by decide

/-! ## Text -/

/-- V-RM-16, V-IM-13 and V-AM-2. -/
theorem test_lines : [lines [0x8B#8, 0x56#8, 0x00#8], lines [0xC6#8, 0x80#8, 0x00#8, 0x80#8, 0x80#8],
      lines [0xA2#8, 0x00#8, 0x00#8]] =
    [some ["mov dx, [bp + 0]"], some ["mov [bx + si - 32768], byte -128"], some ["mov [0], al"]] := by decide
/-- V-FMT-11 and V-FMT-12 (default texts). -/
theorem test_diagnostic_lines : textOutput defaultTexts [.unrec 3 0x8C#8, .trunc 13 0xB8#8 2] =
    ["; unrecognized opcode 0b10001100", "; truncated instruction at 13: 0b10111000"] := by decide

/-! ## The opcode table's words -/

/-- `MOV_RM_DIRECT`: the table's `match` 0x8806, then an operand word in the bits above. -/
theorem test_table_word : decodeTableWord 32 0x09FB8806 = some (.movRmDirect false false 0b000#3 0x09FB#16) := by decide
theorem test_table_word_runs :
    step (State.reset.withFetchWord 16 0x88C0) =
      exec (.movRmRegRr false false 0b000#3 0b000#3) (State.reset.withFetchWord 16 0x88C0) := by rfl
theorem test_table_word_unrec : decodeTableWord 8 0x00 = some (.unrec 0x00#8) := by decide

/-! ## Witnesses: fields, classifier and encoding -/

theorem witness_NumberReadings :
    (sext16 0x7F#8, sext16 0x80#8, s16 0x7FFF#16, s16 0x8000#16) = (127, -128, 32767, -32768) := by decide

theorem witness_ClassifierOrderIrrelevant : classifierTests.reverse.Perm classifierTests := List.reverse_perm _

theorem witness_RmSixDependsOnMod : ∃ win : List Byte, win[2]? = some 0x00#8 ∧ win[3]? = some 0x80#8 :=
  ⟨[0x8B#8, 0x86#8, 0x00#8, 0x80#8], rfl, rfl⟩

theorem witness_DecodeOfEncode :
    (Instr.movRmMem0 true true 0b101#3 0b011#3).wf = true ∧ (Instr.unrec 0x87#8).wf = true := by decide

theorem witness_EncodeOfDecode :
    decode [0xC7#8, 0x46#8, 0x00#8, 0xFF#8, 0xFF#8, 0x90#8] = .instr (.movImmMem8_16 0b000#3 0b110#3 0x00#8 0xFFFF#16) := by
  decide

theorem witness_EncodedLengthIsNeed :
    (Instr.movImmDirect16 0b000#3 0x8000#16 0xFFFF#16).wf = true ∧
    encode (.movImmDirect16 0b000#3 0x8000#16 0xFFFF#16) ++ [] =
      0xC7#8 :: 0x06#8 :: [0x00#8, 0x80#8, 0xFF#8, 0xFF#8] ∧
    (∀ b, Instr.movImmDirect16 0b000#3 0x8000#16 0xFFFF#16 ≠ .unrec b) ∧
    (Instr.unrec 0x90#8).wf = true ∧ encode (.unrec 0x90#8) ++ [0xB8#8] = 0x90#8 :: 0xB8#8 :: [] ∧
    ∃ b, Instr.unrec 0x90#8 = .unrec b := by
  refine ⟨by decide, by decide, ?_, by decide, by decide, _, rfl⟩
  intro b h
  cases h

theorem witness_OpcodeTableSelectsOneRow :
    decode (0xC6#8 :: 0x06#8 :: [0xFB#8, 0x09#8, 0x07#8]) = .instr (.movImmDirect8 0b000#3 0x09FB#16 0x07#8) ∧
    decode (0x00#8 :: 0x00#8 :: []) = .instr (.unrec 0x00#8) := by decide

/-! ## Witnesses: DEC -/

theorem witness_DecAgreesWithDecoder :
    decode [0xA1#8, 0x10#8, 0x00#8] = .instr (.movMemAcc16 0x0010#16) ∧
    decode [0xA1#8, 0xFB#8] = .reject (.truncated 0xA1#8 2) ∧
    decode [0xB0#8] = .reject (.truncated 0xB0#8 1) := by decide

/-- Five bytes of a six-byte unit, and all six. -/
theorem witness_DecTruncatesWhenBytesMissing :
    classify 0xC7#8 ≠ .unrec ∧
    (0xC7#8 :: 0x86#8 :: [0x2C#8, 0x01#8, 0x2B#8] : List Byte).length < need 0xC7#8 0x86#8 ∧
    need 0xC7#8 0x86#8 ≤ (0xC7#8 :: 0x86#8 :: [0x2C#8, 0x01#8, 0x2B#8, 0x01#8] : List Byte).length := by decide

theorem witness_DecDependsOnUnitBytesOnly :
    need 0xB0#8 0xBF#8 ≤ (0xB0#8 :: 0xBF#8 :: [] : List Byte).length ∧
    need 0xB0#8 0xBF#8 ≤ (0xB0#8 :: 0xBF#8 :: [0xC0#8] : List Byte).length ∧
    (0xB0#8 :: 0xBF#8 :: [] : List Byte).take (need 0xB0#8 0xBF#8) =
      (0xB0#8 :: 0xBF#8 :: [0xC0#8] : List Byte).take (need 0xB0#8 0xBF#8) := by decide

theorem witness_ImmediateMemoryIgnoresRegField : classify 0xC6#8 = .im := by decide

/-! ## Witnesses: instruction forms -/

theorem witness_EveryFormCompletesWithFrame : (Instr.movRmMem8 false false 0b101#3 0b110#3 0xFB#8).wf = true := by decide

theorem witness_DirectionBitOrdersOperands :
    resolveRm true 0b01#2 0b110#3 2 [0x8B#8, 0x46#8, 0x80#8] = some (.indexedMemory 0b110#3 (some (-128)), 1) ∧
    resolveRm false 0b11#2 0b000#3 2 [0x88#8, 0xE0#8] = some (.register false 0b000#3, 0) := by decide

/-! ## Witnesses: from the bytes at the cursor -/

/-- A state in mid-run: one unit consumed, the rest of the buffer as given. -/
def mid (bs : List Byte) : State where
  cursor := 2
  status := .run
  out := [.instr 0 ⟨.mov, .register true 0b000#3, .register true 0b011#3, 2⟩]
  buf := Memory.ofBytes (0x89#8 :: 0xD8#8 :: bs)

theorem mid_inBounds (bs : List Byte) (h : (mid bs).buf.wf = true) : (mid bs).InBounds := by
  refine ⟨h, ?_⟩
  simp [mid, Memory.ofBytes, Memory.cellsFrom, Memory.size]

theorem witness_EndOfBufferIsDone : (mid []).status = .run ∧ (mid []).cursor = (mid []).buf.size := by decide

theorem witness_StepRunsDecodedInstruction :
    (mid [0xB1#8, 0xF4#8]).status = .run ∧ (mid [0xB1#8, 0xF4#8]).cursor < (mid [0xB1#8, 0xF4#8]).buf.size ∧
    (mid [0xB1#8, 0xF4#8]).window = some [0xB1#8, 0xF4#8] ∧
    decode [0xB1#8, 0xF4#8] = .instr (.movImmReg8 0b001#3 0xF4#8) := by decide

theorem witness_StepRunsEncodedInstruction :
    (mid [0xB1#8, 0xF4#8]).InBounds ∧ (mid [0xB1#8, 0xF4#8]).status = .run ∧
    (Instr.movImmReg8 0b001#3 0xF4#8).wf = true ∧
    (mid [0xB1#8, 0xF4#8]).buf.holdsAt 2 (encode (.movImmReg8 0b001#3 0xF4#8)) = true :=
  ⟨mid_inBounds _ (by decide), by decide, by decide, by decide⟩

theorem witness_FetchWordIsRunNext : decodeTableWord 16 0xB0FF = some (.movImmReg8 0b000#3 0xFF#8) := by decide

/-- Each of the five clauses, with `rm = 110` on both sides of the direct-address case. -/
theorem witness_RegisterMemoryUnits :
    ((mid [0x8B#8, 0xC6#8]).InBounds ∧ (mid [0x8B#8, 0xC6#8]).buf.holdsAt 2 [0x8B#8, 0b11000110#8] = true) ∧
    ((mid [0x8B#8, 0x07#8]).InBounds ∧ (0b111#3 : Code) ≠ 0b110#3 ∧
      (mid [0x8B#8, 0x07#8]).buf.holdsAt 2 [0x8B#8, 0b00000111#8] = true) ∧
    ((mid [0x8B#8, 0x06#8, 0x00#8, 0x80#8]).InBounds ∧
      (mid [0x8B#8, 0x06#8, 0x00#8, 0x80#8]).buf.holdsAt 2 [0x8B#8, 0b00000110#8, 0x00#8, 0x80#8] = true) ∧
    ((mid [0x8B#8, 0x46#8, 0x80#8]).InBounds ∧
      (mid [0x8B#8, 0x46#8, 0x80#8]).buf.holdsAt 2 [0x8B#8, 0b01000110#8, 0x80#8] = true) ∧
    ((mid [0x8B#8, 0x86#8, 0xFF#8, 0x7F#8]).InBounds ∧
      (mid [0x8B#8, 0x86#8, 0xFF#8, 0x7F#8]).buf.holdsAt 2 [0x8B#8, 0b10000110#8, 0xFF#8, 0x7F#8] = true) := by
  refine ⟨⟨mid_inBounds _ ?_, ?_⟩, ⟨mid_inBounds _ ?_, ?_⟩, ⟨mid_inBounds _ ?_, ?_⟩, ⟨mid_inBounds _ ?_, ?_⟩,
    mid_inBounds _ ?_, ?_⟩ <;> decide

theorem witness_ImmediateToRegisterUnits :
    ((mid [0xB7#8, 0x7F#8]).InBounds ∧ (mid [0xB7#8, 0x7F#8]).buf.holdsAt 2 [0b10110#5 ++ 0b111#3, 0x7F#8] = true) ∧
    ((mid [0xB8#8, 0x00#8, 0x80#8]).InBounds ∧
      (mid [0xB8#8, 0x00#8, 0x80#8]).buf.holdsAt 2 [0b10111#5 ++ 0b000#3, 0x00#8, 0x80#8] = true) := by
  refine ⟨⟨mid_inBounds _ ?_, ?_⟩, mid_inBounds _ ?_, ?_⟩ <;> decide

/-- Each of the five clauses for `w = 0`. -/
theorem witness_ImmediateToMemoryUnits_byte :
    ((mid [0xC6#8, 0xC6#8, 0x80#8]).InBounds ∧
      (mid [0xC6#8, 0xC6#8, 0x80#8]).buf.holdsAt 2 ([0xC6#8, 0b11000110#8] ++ [0x80#8]) = true) ∧
    ((mid [0xC6#8, 0x07#8, 0x80#8]).InBounds ∧
      (mid [0xC6#8, 0x07#8, 0x80#8]).buf.holdsAt 2 ([0xC6#8, 0b00000111#8] ++ [0x80#8]) = true) ∧
    ((mid [0xC6#8, 0x3E#8, 0x00#8, 0x80#8, 0x7F#8]).InBounds ∧
      (mid [0xC6#8, 0x3E#8, 0x00#8, 0x80#8, 0x7F#8]).buf.holdsAt 2
        ([0xC6#8, 0b00111110#8, 0x00#8, 0x80#8] ++ [0x7F#8]) = true) ∧
    ((mid [0xC6#8, 0x7E#8, 0x80#8, 0x07#8]).InBounds ∧
      (mid [0xC6#8, 0x7E#8, 0x80#8, 0x07#8]).buf.holdsAt 2 ([0xC6#8, 0b01111110#8, 0x80#8] ++ [0x07#8]) = true) ∧
    ((mid [0xC6#8, 0x80#8, 0x00#8, 0x80#8, 0x80#8]).InBounds ∧
      (mid [0xC6#8, 0x80#8, 0x00#8, 0x80#8, 0x80#8]).buf.holdsAt 2
        ([0xC6#8, 0b10000000#8, 0x00#8, 0x80#8] ++ [0x80#8]) = true) := by
  refine ⟨⟨mid_inBounds _ ?_, ?_⟩, ⟨mid_inBounds _ ?_, ?_⟩, ⟨mid_inBounds _ ?_, ?_⟩, ⟨mid_inBounds _ ?_, ?_⟩,
    mid_inBounds _ ?_, ?_⟩ <;> decide

/-- Each of the five clauses for `w = 1`. -/
theorem witness_ImmediateToMemoryUnits_word :
    ((mid [0xC7#8, 0xC6#8, 0x00#8, 0x80#8]).InBounds ∧
      (mid [0xC7#8, 0xC6#8, 0x00#8, 0x80#8]).buf.holdsAt 2 ([0xC7#8, 0b11000110#8] ++ [0x00#8, 0x80#8]) = true) ∧
    ((mid [0xC7#8, 0x07#8, 0x00#8, 0x80#8]).InBounds ∧
      (mid [0xC7#8, 0x07#8, 0x00#8, 0x80#8]).buf.holdsAt 2 ([0xC7#8, 0b00000111#8] ++ [0x00#8, 0x80#8]) = true) ∧
    ((mid [0xC7#8, 0x06#8, 0x00#8, 0x80#8, 0xFF#8, 0xFF#8]).InBounds ∧
      (mid [0xC7#8, 0x06#8, 0x00#8, 0x80#8, 0xFF#8, 0xFF#8]).buf.holdsAt 2
        ([0xC7#8, 0b00000110#8, 0x00#8, 0x80#8] ++ [0xFF#8, 0xFF#8]) = true) ∧
    ((mid [0xC7#8, 0x46#8, 0x00#8, 0xFF#8, 0xFF#8]).InBounds ∧
      (mid [0xC7#8, 0x46#8, 0x00#8, 0xFF#8, 0xFF#8]).buf.holdsAt 2
        ([0xC7#8, 0b01000110#8, 0x00#8] ++ [0xFF#8, 0xFF#8]) = true) ∧
    ((mid [0xC7#8, 0x86#8, 0x2C#8, 0x01#8, 0x2B#8, 0x01#8]).InBounds ∧
      (mid [0xC7#8, 0x86#8, 0x2C#8, 0x01#8, 0x2B#8, 0x01#8]).buf.holdsAt 2
        ([0xC7#8, 0b10000110#8, 0x2C#8, 0x01#8] ++ [0x2B#8, 0x01#8]) = true) := by
  refine ⟨⟨mid_inBounds _ ?_, ?_⟩, ⟨mid_inBounds _ ?_, ?_⟩, ⟨mid_inBounds _ ?_, ?_⟩, ⟨mid_inBounds _ ?_, ?_⟩,
    mid_inBounds _ ?_, ?_⟩ <;> decide

/-- The width hypothesis of `Obligations.ImmediateToMemoryUnits`, for both widths. -/
theorem witness_ImmediateToMemoryUnits_width :
    ((false = false ∧ ∃ i, ([0x80#8] : List Byte) = [i] ∧
      Operand.immediate (-128) .byte = .immediate (sext16 i) .byte ∧ 1 = 1)) ∧
    (true = true ∧ ∃ i j, ([0x00#8, 0x80#8] : List Byte) = [i, j] ∧
      Operand.immediate (-32768) .word = .immediate (s16 (le16 i j)) .word ∧ 2 = 2) :=
  ⟨⟨rfl, _, rfl, by decide, rfl⟩, rfl, _, _, rfl, by decide, rfl⟩

theorem witness_AccumulatorUnits :
    ((mid [0xA0#8, 0xFF#8, 0xFF#8]).InBounds ∧
      (mid [0xA0#8, 0xFF#8, 0xFF#8]).buf.holdsAt 2 [0b1010000#7 ++ BitVec.ofBool false, 0xFF#8, 0xFF#8] = true) ∧
    ((mid [0xA3#8, 0x00#8, 0x80#8]).InBounds ∧
      (mid [0xA3#8, 0x00#8, 0x80#8]).buf.holdsAt 2 [0b1010001#7 ++ BitVec.ofBool true, 0x00#8, 0x80#8] = true) := by
  refine ⟨⟨mid_inBounds _ ?_, ?_⟩, mid_inBounds _ ?_, ?_⟩ <;> decide

/-- Two texts that meet the spec's conditions, other than its default texts. -/
def plainTexts : DiagTexts where
  unrecText b := bin8 b
  truncText _ _ _ := "truncated"

theorem plainTexts_conforming : Conforming plainTexts := by
  refine ⟨fun b => ⟨?_, ?_, List.infix_refl _⟩, fun _ _ _ => ⟨?_, ?_, fun b => ?_⟩⟩
  · exact (by decide : ∀ b : Byte, '\n' ∉ (bin8 b).toList ∧ '\r' ∉ (bin8 b).toList) b
  · exact (by decide : ∀ b : Byte, ¬ "mov ".toList <+: (bin8 b).toList) b
  · exact (by decide : '\n' ∉ "truncated".toList ∧ '\r' ∉ "truncated".toList)
  · exact (by decide : ¬ "mov ".toList <+: "truncated".toList)
  · exact (by decide : ∀ b : Byte, "truncated" ≠ bin8 b) b

theorem witness_UnrecognizedByteIsSkipped :
    (mid [0xFF#8]).InBounds ∧ (mid [0xFF#8]).status = .run ∧ (mid [0xFF#8]).buf.read 2 = some 0xFF#8 ∧
    classify 0xFF#8 = .unrec ∧ Conforming plainTexts :=
  ⟨mid_inBounds _ (by decide), by decide, by decide, by decide, plainTexts_conforming⟩

theorem witness_ResynchronizationIsByteWise :
    (mid [0xFF#8, 0x89#8, 0xD8#8]).InBounds ∧ (mid [0xFF#8, 0x89#8, 0xD8#8]).status = .run ∧
    classify 0xFF#8 = .unrec ∧ (Instr.movRmRegRr false true 0b011#3 0b000#3).wf = true ∧
    (mid [0xFF#8, 0x89#8, 0xD8#8]).buf.holdsAt 2 (0xFF#8 :: encode (.movRmRegRr false true 0b011#3 0b000#3)) = true :=
  ⟨mid_inBounds _ (by decide), by decide, by decide, by decide, by decide⟩

/-- Both alternatives: one byte left, and five bytes of a six-byte unit. -/
theorem witness_TruncatedUnitEndsRun :
    ((mid [0xB0#8]).InBounds ∧ (mid [0xB0#8]).status = .run ∧ (mid [0xB0#8]).buf.read 2 = some 0xB0#8 ∧
      classify 0xB0#8 ≠ .unrec ∧ 2 + 1 = (mid [0xB0#8]).buf.size) ∧
    ((mid [0xC7#8, 0x86#8, 0x2C#8, 0x01#8, 0x2B#8]).InBounds ∧
      (mid [0xC7#8, 0x86#8, 0x2C#8, 0x01#8, 0x2B#8]).status = .run ∧
      (mid [0xC7#8, 0x86#8, 0x2C#8, 0x01#8, 0x2B#8]).buf.read 2 = some 0xC7#8 ∧ classify 0xC7#8 ≠ .unrec ∧
      ∃ b1, (mid [0xC7#8, 0x86#8, 0x2C#8, 0x01#8, 0x2B#8]).buf.read (2 + 1) = some b1 ∧
        (mid [0xC7#8, 0x86#8, 0x2C#8, 0x01#8, 0x2B#8]).buf.size < 2 + need 0xC7#8 b1) :=
  ⟨⟨mid_inBounds _ (by decide), by decide, by decide, by decide, by decide⟩,
    mid_inBounds _ (by decide), by decide, by decide, by decide, 0x86#8, by decide, by decide⟩

/-! ## Witnesses: the step as a whole -/

/-- A step of each kind: end of buffer, a decoded instruction, an unrecognized byte, a truncated unit. -/
theorem witness_StepAdvancesByRecord :
    step (mid []) = .next (mid []).finish ∧
    step (mid [0xB0#8, 0x80#8]) =
      .next ((mid [0xB0#8, 0x80#8]).retire ⟨.mov, .register false 0b000#3, .immediate (-128) .byte, 2⟩) ∧
    step (mid [0xFF#8]) = .next ((mid [0xFF#8]).raise (.unrecognized 0xFF#8)) ∧
    step (mid [0xB0#8]) = .next ((mid [0xB0#8]).raise (.truncated 0xB0#8 1)) := ⟨rfl, rfl, rfl, rfl⟩

theorem witness_StepNeverWritesBuffer : ∃ t, step (mid [0xA2#8, 0xFA#8, 0x09#8]) = .next t := ⟨_, rfl⟩

theorem witness_LogIsAppendOnlyAndNeverRead : ∃ t, step (mid [0x90#8]) = .next t := ⟨_, rfl⟩

/-- Another buffer that differs before the cursor and beyond the window. -/
theorem witness_StepReadsOnlyWindow :
    (Memory.ofBytes [0#8, 0#8, 0xB0#8, 1#8, 2#8, 3#8, 4#8, 5#8, 0#8]).size =
      (mid [0xB0#8, 1#8, 2#8, 3#8, 4#8, 5#8, 6#8]).buf.size ∧
    (∀ i, i < 6 → 2 + i < (mid [0xB0#8, 1#8, 2#8, 3#8, 4#8, 5#8, 6#8]).buf.size →
      (Memory.ofBytes [0#8, 0#8, 0xB0#8, 1#8, 2#8, 3#8, 4#8, 5#8, 0#8]).read (2 + i) =
        (mid [0xB0#8, 1#8, 2#8, 3#8, 4#8, 5#8, 6#8]).buf.read (2 + i)) ∧
    ∃ t, step (mid [0xB0#8, 1#8, 2#8, 3#8, 4#8, 5#8, 6#8]) = .next t :=
  ⟨by decide, by decide, _, rfl⟩

/-- A `DONE` state of a run. -/
def doneState : State := (mid []).finish

/-- A `TRUNC` state of a run, five bytes of its last unit left. -/
def truncState : State := (mid [0xC7#8, 0x86#8, 0x2C#8, 0x01#8, 0x2B#8]).raise (.truncated 0xC7#8 5)

theorem witness_FinalStatesAndProgress :
    (doneState.isFinal = true ∧ truncState.isFinal = true) ∧
    ((mid [0xB0#8]).InBounds ∧ (mid [0xB0#8]).status = .run) ∧
    (doneState.Inv ∧ doneState.status = .done) ∧ (truncState.Inv ∧ truncState.status = .trunc) :=
  ⟨by decide, ⟨mid_inBounds _ (by decide), rfl⟩, ⟨⟨⟨rfl, by decide⟩, rfl, rfl, rfl, rfl⟩, rfl⟩,
    ⟨⟨⟨rfl, by decide⟩, rfl, rfl, rfl, rfl⟩, rfl⟩⟩

theorem witness_StepKeepsInvariant :
    (mid [0x8C#8]).Inv ∧ step (mid [0x8C#8]) = .next ((mid [0x8C#8]).raise (.unrecognized 0x8C#8)) :=
  ⟨⟨⟨rfl, by decide⟩, rfl, rfl, rfl, rfl⟩, rfl⟩

theorem witness_RunTerminates : (mid [0xB0#8]).InBounds := mid_inBounds _ (by decide)

/-- A `RUN` state within bounds, and a run that reaches a final state. -/
theorem witness_EveryBufferHasOneFinalState :
    (mid []).InBounds ∧ (mid []).status = .run ∧
    runSteps 5 (State.load []) = .next (State.load []).finish ∧ (State.load []).finish.isFinal = true :=
  ⟨mid_inBounds _ (by decide), rfl, rfl, rfl⟩

theorem witness_LengthConservation :
    ∀ i ∈ [Instr.movRmRegRr false true 0b011#3 0b001#3, .unrec 0x8C#8, .movAccMem16 0x09FB#16], i.wf = true := by decide

/-! ## Witnesses: the formatter -/

theorem witness_RegisterNamesDistinct : regName true 0b111#3 = regName true 0b111#3 := rfl

/-- The boundary displacements 0 and -1, a source that is no immediate, a destination in memory. -/
theorem witness_LineForms :
    (0 : Int) ≤ 0 ∧ (-1 : Int) < 0 ∧ (Operand.register true 0b000#3).isImmediate = false ∧
    (Operand.directMemory (-32768)).isMem = true := by decide

theorem witness_DecimalSpelling : (1 : Nat) ≠ 0 ∧ (0 : Nat) < 1 := by decide

theorem witness_MovLinesAreDecodedInstructions :
    Conforming plainTexts ∧ (OutRec.unrec 0 0x00#8).causeCode = some 1 ∧
    (OutRec.trunc 13 0xB8#8 2).causeCode = some 2 := ⟨plainTexts_conforming, rfl, rfl⟩

end Sys2Proof.Tests
end

section
/-! Proofs of the scope family: the readings of bytes and words as numbers (R8). -/

namespace Sys2Proof.Machine

theorem sext16_of_lt {x : Byte} (h : x.toNat < 128) : sext16 x = x.toNat := if_pos h

theorem sext16_of_ge {x : Byte} (h : 128 ≤ x.toNat) : sext16 x = (x.toNat : Int) - 256 := if_neg (Nat.not_lt.mpr h)

theorem s16_of_lt {u : Word} (h : u.toNat < 32768) : s16 u = u.toNat := if_pos h

theorem s16_of_ge {u : Word} (h : 32768 ≤ u.toNat) : s16 u = (u.toNat : Int) - 65536 := if_neg (Nat.not_lt.mpr h)

theorem natAbs_s16_le (u : Word) : (s16 u).natAbs ≤ 32768 := by
  obtain ⟨hlow, hhigh⟩ := s16_range u
  omega

/-- The magnitude 32768, which no `i16` holds, belongs to one word only. -/
theorem natAbs_s16_eq_iff (u : Word) : (s16 u).natAbs = 32768 ↔ u = 0x8000#16 := by
  constructor
  · intro habs
    apply BitVec.eq_of_toNat_eq
    rw [BitVec.toNat_ofNat]
    rcases Nat.lt_or_ge u.toNat 32768 with hlt | hge
    · rw [s16_of_lt hlt] at habs
      omega
    · have hlim := u.isLt
      rw [s16_of_ge hge] at habs
      omega
  · rintro rfl
    decide

/-- Settles O1: the value of each reading on both of its ranges, its bounds and its two's-complement value. -/
theorem numberReadings : Obligations.NumberReadings := by
  refine ⟨?zext, le16_toNat, ?sext, ?s16, ?abs⟩
  case zext => exact fun x => BitVec.toNat_setWidth_of_le (by decide)
  case sext =>
    intro x
    obtain ⟨hlow, hhigh⟩ := sext16_range x
    exact ⟨sext16_of_lt, sext16_of_ge, hlow, hhigh, sext16_eq_toInt x⟩
  case s16 =>
    intro u
    obtain ⟨hlow, hhigh⟩ := s16_range u
    exact ⟨s16_of_lt, s16_of_ge, hlow, hhigh, s16_eq_toInt u⟩
  case abs => exact fun u => ⟨natAbs_s16_le u, natAbs_s16_eq_iff u⟩

end Sys2Proof.Machine
end

section
/-! Rules about the decoder and DEC: the rows and DEC's extractors read the same instruction, its length is `Need`, and
what DEC gives on a window the decoder reads or rejects as truncated. -/

namespace Sys2Proof.Machine

/-! ## The rows and DEC's extractors -/

theorem instrRm_retired (b0 : Byte) (t : List Byte) : (instrRm b0 t).bind retired = decodeRm (b0 :: t) := by
  cases t with
  | nil => rfl
  | cons b1 t =>
    simp only [instrRm, decodeRm, extractFields, take8_cons, resolveRm]
    rcases mod_cases (fieldMod b1) with h | h | h | h
    · by_cases h6 : fieldRm b1 = 0b110#3
      · rcases t with _ | ⟨lo, _ | ⟨hi, t⟩⟩ <;> simp [h, h6, winWord, retired, regRmMove, rmDirect]
      · simp [h, h6, retired, regRmMove, rmPlain]
    · cases t <;> simp [h, retired, regRmMove, rmDisp8]
    · rcases t with _ | ⟨lo, _ | ⟨hi, t⟩⟩ <;> simp [h, winWord, retired, regRmMove, rmDisp16]
    · simp [h, retired, regRmMove, rmRegister]

theorem instrIr_retired (b0 : Byte) (t : List Byte) : (instrIr b0 t).bind retired = decodeIr (b0 :: t) := by
  cases hw : fieldWIr b0 with
  | false => cases t <;> simp [instrIr, decodeIr, extractFields, immediateAt, hw, retired, immRegMove, imm8]
  | true =>
    rcases t with _ | ⟨lo, _ | ⟨hi, t⟩⟩ <;>
      simp [instrIr, decodeIr, extractFields, immediateAt, hw, winWord, retired, immRegMove, imm16]

theorem instrIm8_retired {b0 : Byte} (hw : fieldW b0 = false) (b1 : Byte) (t : List Byte) :
    (instrIm8 b1 t).bind retired = decodeIm (b0 :: b1 :: t) := by
  simp only [instrIm8, decodeIm, extractFields, resolveRm, immediateAt]
  rcases mod_cases (fieldMod b1) with h | h | h | h
  · by_cases h6 : fieldRm b1 = 0b110#3
    · rcases t with _ | ⟨lo, _ | ⟨hi, _ | ⟨i, t⟩⟩⟩ <;> simp [hw, h, h6, winWord, retired, immRmMove, rmDirect, imm8]
    · cases t <;> simp [hw, h, h6, retired, immRmMove, rmPlain, imm8]
  · rcases t with _ | ⟨d, _ | ⟨i, t⟩⟩ <;> simp [hw, h, retired, immRmMove, rmDisp8, imm8]
  · rcases t with _ | ⟨lo, _ | ⟨hi, _ | ⟨i, t⟩⟩⟩ <;> simp [hw, h, winWord, retired, immRmMove, rmDisp16, imm8]
  · cases t <;> simp [hw, h, retired, immRmMove, rmRegister, imm8]

theorem instrIm16_retired {b0 : Byte} (hw : fieldW b0 = true) (b1 : Byte) (t : List Byte) :
    (instrIm16 b1 t).bind retired = decodeIm (b0 :: b1 :: t) := by
  simp only [instrIm16, decodeIm, extractFields, resolveRm, immediateAt]
  rcases mod_cases (fieldMod b1) with h | h | h | h
  · by_cases h6 : fieldRm b1 = 0b110#3
    · rcases t with _ | ⟨lo, _ | ⟨hi, _ | ⟨i, _ | ⟨j, t⟩⟩⟩⟩ <;>
        simp [hw, h, h6, winWord, retired, immRmMove, rmDirect, imm16]
    · rcases t with _ | ⟨i, _ | ⟨j, t⟩⟩ <;> simp [hw, h, h6, winWord, retired, immRmMove, rmPlain, imm16]
  · rcases t with _ | ⟨d, _ | ⟨i, _ | ⟨j, t⟩⟩⟩ <;> simp [hw, h, winWord, retired, immRmMove, rmDisp8, imm16]
  · rcases t with _ | ⟨lo, _ | ⟨hi, _ | ⟨i, _ | ⟨j, t⟩⟩⟩⟩ <;>
      simp [hw, h, winWord, retired, immRmMove, rmDisp16, imm16]
  · rcases t with _ | ⟨i, _ | ⟨j, t⟩⟩ <;> simp [hw, h, winWord, retired, immRmMove, rmRegister, imm16]

theorem instrIm_retired (b0 : Byte) (t : List Byte) : (instrIm b0 t).bind retired = decodeIm (b0 :: t) := by
  cases t with
  | nil => rfl
  | cons b1 t =>
    cases hw : fieldW b0 with
    | false => simpa [instrIm, hw] using instrIm8_retired hw b1 t
    | true => simpa [instrIm, hw] using instrIm16_retired hw b1 t

theorem instrAm_retired (b0 : Byte) (t : List Byte) : (instrAm b0 t).bind retired = decodeAm (b0 :: t) := by
  rcases t with _ | ⟨lo, _ | ⟨hi, t⟩⟩ <;> cases hw : fieldW b0 <;>
    simp [instrAm, decodeAm, extractFields, hw, winWord, retired, accToMem, accumulator]

theorem instrMa_retired (b0 : Byte) (t : List Byte) : (instrMa b0 t).bind retired = decodeMa (b0 :: t) := by
  rcases t with _ | ⟨lo, _ | ⟨hi, t⟩⟩ <;> cases hw : fieldW b0 <;>
    simp [instrMa, decodeMa, extractFields, hw, winWord, retired, memToAcc, accumulator]

/-- On every window, truncated ones included, the extractor that the multiplexer selects reads the instruction of the
row that the decoder selects (R105). -/
theorem instrOf_retired (b0 : Byte) (t : List Byte) :
    (instrOf b0 t).bind retired = selectExtractor (classify b0) (b0 :: t) := by
  unfold instrOf selectExtractor
  cases classify b0 with
  | rm => exact instrRm_retired b0 t
  | ir => exact instrIr_retired b0 t
  | im => exact instrIm_retired b0 t
  | am => exact instrAm_retired b0 t
  | ma => exact instrMa_retired b0 t
  | unrec => rfl

/-! ## Lengths -/

theorem resolveRm_length {w : Bool} {mod : BitVec 2} {rm : Code} {p : Nat} {win : List Byte} {m : Operand × Nat}
    (h : resolveRm w mod rm p win = some m) : m.2 = dispLen mod rm := by
  rcases mod_cases mod with rfl | rfl | rfl | rfl
  · by_cases h6 : rm = 0b110#3
    · obtain ⟨_, _, rfl⟩ : ∃ a, winWord win p = some a ∧ rmDirect a = m := by simpa [resolveRm, h6] using h
      simp [dispLen, h6, rmDirect]
    · obtain rfl : rmPlain rm = m := by simpa [resolveRm, h6] using h
      simp [dispLen, h6, rmPlain]
  · obtain ⟨_, _, rfl⟩ := Option.map_eq_some_iff.1 h
    rfl
  · obtain ⟨_, _, rfl⟩ := Option.map_eq_some_iff.1 h
    rfl
  · cases h
    rfl

theorem immediateAt_length {w : Bool} {q : Nat} {win : List Byte} {v : Operand × Nat}
    (h : immediateAt w q win = some v) : v.2 = if w then 2 else 1 := by
  cases w <;> obtain ⟨_, _, rfl⟩ := Option.map_eq_some_iff.1 h <;> rfl

theorem decodeRm_length {b0 b1 : Byte} {t : List Byte} {ins : DecodedInstruction}
    (h : decodeRm (b0 :: b1 :: t) = some ins) : ins.bytesConsumed = 2 + dispLen (fieldMod b1) (fieldRm b1) := by
  obtain ⟨m, k, hm, rfl⟩ := by simpa [decodeRm, extractFields, Option.bind_eq_some_iff] using h
  simp [← resolveRm_length hm]

theorem decodeIr_length {b0 : Byte} {t : List Byte} {ins : DecodedInstruction}
    (h : decodeIr (b0 :: t) = some ins) : ins.bytesConsumed = if fieldWIr b0 then 3 else 2 := by
  obtain ⟨v, n, hv, rfl⟩ := by simpa [decodeIr, extractFields, Option.bind_eq_some_iff] using h
  have hn : n = if fieldWIr b0 then 2 else 1 := immediateAt_length hv
  split at hn <;> simp_all

theorem decodeIm_length {b0 b1 : Byte} {t : List Byte} {ins : DecodedInstruction}
    (h : decodeIm (b0 :: b1 :: t) = some ins) :
    ins.bytesConsumed = 2 + dispLen (fieldMod b1) (fieldRm b1) + if fieldW b0 then 2 else 1 := by
  obtain ⟨m, k, hm, v, n, hv, rfl⟩ := by simpa [decodeIm, extractFields, Option.bind_eq_some_iff] using h
  simp [← resolveRm_length hm, ← immediateAt_length hv]

theorem decodeAm_length {win : List Byte} {ins : DecodedInstruction} (h : decodeAm win = some ins) :
    ins.bytesConsumed = 3 := by
  obtain ⟨_, _, _, _, rfl⟩ := by
    simpa only [decodeAm, Option.bind_eq_bind, Option.bind_eq_some_iff, Option.some.injEq] using h
  rfl

theorem decodeMa_length {win : List Byte} {ins : DecodedInstruction} (h : decodeMa win = some ins) :
    ins.bytesConsumed = 3 := by
  obtain ⟨_, _, _, _, rfl⟩ := by
    simpa only [decodeMa, Option.bind_eq_bind, Option.bind_eq_some_iff, Option.some.injEq] using h
  rfl

/-- The instruction that DEC reads consumes `Need` bytes (R72, R105). -/
theorem selectExtractor_length {b0 b1 : Byte} {t : List Byte} {ins : DecodedInstruction}
    (h : selectExtractor (classify b0) (b0 :: b1 :: t) = some ins) : ins.bytesConsumed = need b0 b1 := by
  unfold need
  cases hk : classify b0 <;> rw [hk] at h
  case rm => exact decodeRm_length h
  case ir => exact decodeIr_length h
  case im => exact decodeIm_length h
  case am => exact decodeAm_length h
  case ma => exact decodeMa_length h
  case unrec => cases h

/-! ## What the decoder reads -/

theorem decode_eq_instr_iff {win : List Byte} {i : Instr} :
    decode win = .instr i ↔ ∃ b0 t, win = b0 :: t ∧ instrOf b0 t = some i := by
  cases win with
  | nil => simp [decode]
  | cons b0 t => cases h : instrOf b0 t <;> simp [decode, h]

theorem hasBaseIndexForm_of_ne {rm : Code} (h : rm ≠ 0b110#3) : hasBaseIndexForm rm = true := bne_iff_ne.2 h

/-- A well-formed form of one of the five shapes: all that the rows but the catch-all can read. -/
def IsMove (i : Instr) : Prop := i.wf = true ∧ (retired i).isSome = true

theorem isMove_of_some {i j : Instr} (hj : IsMove j) (h : some j = some i) : IsMove i := Option.some.inj h ▸ hj

theorem isMove_of_bind {α : Type} {o : Option α} {f : α → Option Instr} {i : Instr}
    (hf : ∀ a, f a = some i → IsMove i) (h : o.bind f = some i) : IsMove i := by
  obtain ⟨a, -, ha⟩ := Option.bind_eq_some_iff.1 h
  exact hf a ha

theorem isMove_instrRm {b0 : Byte} {t : List Byte} {i : Instr} (h : instrRm b0 t = some i) : IsMove i := by
  refine isMove_of_bind (fun ⟨b1, t⟩ h => ?_) h
  dsimp only at h
  split at h
  · exact isMove_of_some ⟨rfl, rfl⟩ h
  · split at h
    · exact isMove_of_bind (fun _ => isMove_of_some ⟨rfl, rfl⟩) h
    next h6 =>
      refine isMove_of_some ⟨?_, rfl⟩ h
      exact hasBaseIndexForm_of_ne h6
  · exact isMove_of_bind (fun _ => isMove_of_some ⟨rfl, rfl⟩) h
  · exact isMove_of_bind (fun _ => isMove_of_some ⟨rfl, rfl⟩) h

theorem isMove_instrIr {b0 : Byte} {t : List Byte} {i : Instr} (h : instrIr b0 t = some i) : IsMove i := by
  unfold instrIr at h
  split at h <;> exact isMove_of_bind (fun _ => isMove_of_some ⟨rfl, rfl⟩) h

theorem isMove_instrIm8 {b1 : Byte} {t : List Byte} {i : Instr} (h : instrIm8 b1 t = some i) : IsMove i := by
  simp only [instrIm8] at h
  split at h
  · exact isMove_of_bind (fun _ => isMove_of_some ⟨rfl, rfl⟩) h
  · split at h
    · exact isMove_of_bind (fun _ => isMove_of_bind fun _ => isMove_of_some ⟨rfl, rfl⟩) h
    next h6 =>
      refine isMove_of_bind (fun _ => isMove_of_some ⟨?_, rfl⟩) h
      exact hasBaseIndexForm_of_ne h6
  · exact isMove_of_bind (fun _ => isMove_of_bind fun _ => isMove_of_some ⟨rfl, rfl⟩) h
  · exact isMove_of_bind (fun _ => isMove_of_bind fun _ => isMove_of_some ⟨rfl, rfl⟩) h

theorem isMove_instrIm16 {b1 : Byte} {t : List Byte} {i : Instr} (h : instrIm16 b1 t = some i) : IsMove i := by
  simp only [instrIm16] at h
  split at h
  · exact isMove_of_bind (fun _ => isMove_of_some ⟨rfl, rfl⟩) h
  · split at h
    · exact isMove_of_bind (fun _ => isMove_of_bind fun _ => isMove_of_some ⟨rfl, rfl⟩) h
    next h6 =>
      refine isMove_of_bind (fun _ => isMove_of_some ⟨?_, rfl⟩) h
      exact hasBaseIndexForm_of_ne h6
  · exact isMove_of_bind (fun _ => isMove_of_bind fun _ => isMove_of_some ⟨rfl, rfl⟩) h
  · exact isMove_of_bind (fun _ => isMove_of_bind fun _ => isMove_of_some ⟨rfl, rfl⟩) h

theorem isMove_instrIm {b0 : Byte} {t : List Byte} {i : Instr} (h : instrIm b0 t = some i) : IsMove i := by
  refine isMove_of_bind (fun ⟨b1, t⟩ h => ?_) h
  dsimp only at h
  split at h
  · exact isMove_instrIm16 h
  · exact isMove_instrIm8 h

theorem isMove_instrAm {b0 : Byte} {t : List Byte} {i : Instr} (h : instrAm b0 t = some i) : IsMove i := by
  refine isMove_of_bind (fun _ => isMove_of_some ?_) h
  cases fieldW b0 <;> exact ⟨rfl, rfl⟩

theorem isMove_instrMa {b0 : Byte} {t : List Byte} {i : Instr} (h : instrMa b0 t = some i) : IsMove i := by
  refine isMove_of_bind (fun _ => isMove_of_some ?_) h
  cases fieldW b0 <;> exact ⟨rfl, rfl⟩

theorem isMove_instrOf {b0 : Byte} {t : List Byte} {i : Instr} (hk : classify b0 ≠ .unrec)
    (h : instrOf b0 t = some i) : IsMove i := by
  unfold instrOf at h
  split at h
  · exact isMove_instrRm h
  · exact isMove_instrIr h
  · exact isMove_instrIm h
  · exact isMove_instrAm h
  · exact isMove_instrMa h
  · contradiction

theorem instrOf_unrec {b0 : Byte} (hk : classify b0 = .unrec) (t : List Byte) :
    instrOf b0 t = some (.unrec b0) := by
  simp [instrOf, hk]

/-- The decoder reads well-formed forms only (R73, R77). -/
theorem wf_of_decode {win : List Byte} {i : Instr} (h : decode win = .instr i) : i.wf = true := by
  obtain ⟨b0, t, rfl, hi⟩ := decode_eq_instr_iff.1 h
  by_cases hk : classify b0 = .unrec
  · obtain rfl : .unrec b0 = i := by simpa [instrOf_unrec hk] using hi
    simpa [Instr.wf] using (classify_unrec_iff b0).1 hk
  · exact (isMove_instrOf hk hi).1

/-! ## What DEC gives -/

theorem retired_bytesConsumed {i : Instr} {ins : DecodedInstruction} (h : retired i = some ins) :
    ins.bytesConsumed = i.length := by
  obtain ⟨ins', hins, hlen, -⟩ | ⟨b, rfl, -⟩ := exec_cases i .reset
  · cases h.symm.trans hins
    exact hlen
  · cases h

theorem dec_unrec (off : Nat) {b0 : Byte} (hk : classify b0 = .unrec) (t : List Byte) :
    dec off (b0 :: t) = some ⟨.unrec, .unrec off b0, 1⟩ := by
  simp [dec, hk]

/-- Where the decoder reads a form of one of the five shapes, its length is `Need`, the bytes are there, and DEC gives
the form's instruction. -/
theorem dec_of_instrOf (off : Nat) {b0 : Byte} {t : List Byte} {i : Instr} (hk : classify b0 ≠ .unrec)
    (h : instrOf b0 t = some i) :
    ∃ ins, retired i = some ins ∧ i.length ≤ (b0 :: t).length ∧
      dec off (b0 :: t) = some ⟨classify b0, .instr off ins, i.length⟩ := by
  obtain ⟨ins, hins⟩ := Option.isSome_iff_exists.1 (isMove_instrOf hk h).2
  cases t with
  | nil => rw [(instrOf_nil b0).2 hk] at h; cases h
  | cons b1 t =>
    have hsel : selectExtractor (classify b0) (b0 :: b1 :: t) = some ins := by
      rw [← instrOf_retired, h]; exact hins
    have hneed : need b0 b1 = i.length := (selectExtractor_length hsel).symm.trans (retired_bytesConsumed hins)
    have hpresent : ¬ (b0 :: b1 :: t).length < need b0 b1 := fun hlt => by
      rw [(instrOf_none b0 b1 t).2 hlt] at h; cases h
    exact ⟨ins, hins, by omega, by rw [dec_two off b1 t hk, if_neg hpresent, hsel, hneed]; rfl⟩

/-- Where the decoder reads a form, its bytes are there, and SEQ does with DEC's outputs what the form means (R105). -/
theorem exec_eq_commitPorts {win : List Byte} {i : Instr} (h : decode win = .instr i) (s : State) :
    i.length ≤ win.length ∧
      ∃ p, dec s.cursor win = some p ∧ p.len = i.length ∧ p.record.len = i.length ∧
        exec i s = .next (commitPorts p s) := by
  obtain ⟨b0, t, rfl, hi⟩ := decode_eq_instr_iff.1 h
  by_cases hk : classify b0 = .unrec
  · obtain rfl : .unrec b0 = i := by simpa [instrOf_unrec hk] using hi
    exact ⟨by simp [Instr.length], _, dec_unrec s.cursor hk t, rfl, rfl, rfl⟩
  · obtain ⟨ins, hins, hlen, hdec⟩ := dec_of_instrOf s.cursor hk hi
    have hbytes := retired_bytesConsumed hins
    refine ⟨hlen, _, hdec, rfl, hbytes, ?_⟩
    obtain ⟨ins', hins', -, hexec⟩ | ⟨b, rfl, -⟩ := exec_cases i s
    · cases hins.symm.trans hins'
      rw [hexec, ← hbytes]; rfl
    · cases hins

/-- Where the decoder rejects a truncated unit, so does DEC; its first byte is recognized and 1 to 5 bytes are there
(R107). -/
theorem dec_of_truncated {win : List Byte} {b0 : Byte} {n : Nat} (off : Nat)
    (h : decode win = .reject (.truncated b0 n)) :
    dec off win = some ⟨classify b0, .trunc off b0 n, 0⟩ ∧ recognizedByte b0 = true ∧ n = win.length ∧ 1 ≤ n ∧
      n ≤ 5 := by
  obtain ⟨rfl, t, rfl, hk, hshort⟩ := (decode_truncated_iff win b0 n).1 h
  have hrec : recognizedByte b0 = true := by
    simpa [classify_unrec_iff] using hk
  obtain rfl | ⟨b1, t, rfl, hlt⟩ := hshort
  · exact ⟨dec_one off hk, hrec, rfl, by simp, by simp⟩
  · have hle := need_le b0 b1
    exact ⟨by rw [dec_two off b1 t hk, if_pos hlt], hrec, rfl, by simp, by omega⟩

end Sys2Proof.Machine
end

section
/-! Proofs of the state family (10_state.md): the register names, the log, the frame of every form, and the invariant of
the sequencer. -/

namespace Sys2Proof.Machine

/-! ## Register names (R21 to R24) -/

/-- Settles O48: both tables, entry by entry. -/
theorem registerNameTables : Obligations.RegisterNameTables := ⟨by decide, by decide⟩

theorem reg8_injective : ∀ c c' : Code, reg8 c = reg8 c' → c = c' := by decide

theorem reg16_injective : ∀ c c' : Code, reg16 c = reg16 c' → c = c' := by decide

theorem reg8_ne_reg16 : ∀ c c' : Code, reg8 c ≠ reg16 c' := by decide

/-- Settles O49: each table has eight distinct names, and no name stands in both. -/
theorem registerNamesDistinct : Obligations.RegisterNamesDistinct := by
  intro w w' c c' h
  match w, w' with
  | false, false => exact ⟨rfl, reg8_injective c c' h⟩
  | false, true => exact absurd h (reg8_ne_reg16 c c')
  | true, false => exact absurd h.symm (reg8_ne_reg16 c' c)
  | true, true => exact ⟨rfl, reg16_injective c c' h⟩

/-! ## The records of the forms -/

theorem inI16_s16 (u : Word) : inI16 (s16 u) = true := by
  simpa [inI16] using s16_range u

theorem inI16_sext16 (x : Byte) : inI16 (sext16 x) = true := by
  obtain ⟨hlow, hhigh⟩ := sext16_range x
  simp only [inI16, Bool.and_eq_true, decide_eq_true_eq]
  omega

theorem imm8_ok (b : Byte) : (imm8 b).1.ok = true := by
  simpa [imm8, Operand.ok] using sext16_range b

theorem imm16_ok (v : Word) : (imm16 v).1.ok = true := inI16_s16 v

/-- What the resolver's arms give: an operand that the record types allow, and no immediate (R69). -/
def IsRmOperand (o : Operand) : Prop := o.ok = true ∧ o.isImmediate = false

theorem isRmOperand_register (w : Bool) (rm : Code) : IsRmOperand (rmRegister w rm).1 := ⟨rfl, rfl⟩

theorem isRmOperand_plain {rm : Code} (h : hasBaseIndexForm rm = true) : IsRmOperand (rmPlain rm).1 := ⟨h, rfl⟩

theorem isRmOperand_direct (addr : Word) : IsRmOperand (rmDirect addr).1 := ⟨inI16_s16 addr, rfl⟩

theorem isRmOperand_disp8 (rm : Code) (disp : Byte) : IsRmOperand (rmDisp8 rm disp).1 := ⟨inI16_sext16 disp, rfl⟩

theorem isRmOperand_disp16 (rm : Code) (disp : Word) : IsRmOperand (rmDisp16 rm disp).1 := ⟨inI16_s16 disp, rfl⟩

/-- What the record types ask of the two operands of a decoded instruction (R29). -/
def OperandsOk (ins : DecodedInstruction) : Prop :=
  ins.destination.ok = true ∧ ins.source.ok = true ∧ ins.destination.isImmediate = false ∧
    (ins.destination.isMem = false ∨ ins.source.isMem = false)

theorem regRmMove_operandsOk (d w : Bool) (reg : Code) {m : Operand × Nat} (h : IsRmOperand m.1) :
    OperandsOk (regRmMove d w reg m) := by
  obtain ⟨hok, himm⟩ := h
  cases d with
  | false => exact ⟨hok, rfl, himm, .inr rfl⟩
  | true => exact ⟨rfl, hok, rfl, .inl rfl⟩

theorem immRegMove_operandsOk (w : Bool) (reg : Code) {v : Operand × Nat} (h : v.1.ok = true) :
    OperandsOk (immRegMove w reg v) := ⟨rfl, h, rfl, .inl rfl⟩

theorem immRmMove_byte_operandsOk {m : Operand × Nat} (h : IsRmOperand m.1) (b : Byte) :
    OperandsOk (immRmMove m (imm8 b)) := ⟨h.1, imm8_ok b, h.2, .inr rfl⟩

theorem immRmMove_word_operandsOk {m : Operand × Nat} (h : IsRmOperand m.1) (v : Word) :
    OperandsOk (immRmMove m (imm16 v)) := ⟨h.1, imm16_ok v, h.2, .inr rfl⟩

theorem accToMem_operandsOk (w : Bool) (addr : Word) : OperandsOk (accToMem w addr) :=
  ⟨inI16_s16 addr, rfl, rfl, .inr rfl⟩

theorem memToAcc_operandsOk (w : Bool) (addr : Word) : OperandsOk (memToAcc w addr) :=
  ⟨rfl, inI16_s16 addr, rfl, .inl rfl⟩

theorem retired_operandsOk {i : Instr} {ins : DecodedInstruction} (h : retired i = some ins)
    (hwf : i.wf = true) : OperandsOk ins := by
  cases i <;> cases h
  case movRmRegRr => exact regRmMove_operandsOk _ _ _ (isRmOperand_register _ _)
  case movRmMem0 => exact regRmMove_operandsOk _ _ _ (isRmOperand_plain hwf)
  case movRmDirect => exact regRmMove_operandsOk _ _ _ (isRmOperand_direct _)
  case movRmMem8 => exact regRmMove_operandsOk _ _ _ (isRmOperand_disp8 _ _)
  case movRmMem16 => exact regRmMove_operandsOk _ _ _ (isRmOperand_disp16 _ _)
  case movImmReg8 => exact immRegMove_operandsOk _ _ (imm8_ok _)
  case movImmReg16 => exact immRegMove_operandsOk _ _ (imm16_ok _)
  case movImmMemRr8 => exact immRmMove_byte_operandsOk (isRmOperand_register _ _) _
  case movImmMemRr16 => exact immRmMove_word_operandsOk (isRmOperand_register _ _) _
  case movImmMem0_8 => exact immRmMove_byte_operandsOk (isRmOperand_plain hwf) _
  case movImmMem0_16 => exact immRmMove_word_operandsOk (isRmOperand_plain hwf) _
  case movImmDirect8 => exact immRmMove_byte_operandsOk (isRmOperand_direct _) _
  case movImmDirect16 => exact immRmMove_word_operandsOk (isRmOperand_direct _) _
  case movImmMem8_8 => exact immRmMove_byte_operandsOk (isRmOperand_disp8 _ _) _
  case movImmMem8_16 => exact immRmMove_word_operandsOk (isRmOperand_disp8 _ _) _
  case movImmMem16_8 => exact immRmMove_byte_operandsOk (isRmOperand_disp16 _ _) _
  case movImmMem16_16 => exact immRmMove_word_operandsOk (isRmOperand_disp16 _ _) _
  case movAccMem8 | movAccMem16 => exact accToMem_operandsOk _ _
  case movMemAcc8 | movMemAcc16 => exact memToAcc_operandsOk _ _

/-- The record of a well-formed form is one that the record types allow (R29). -/
theorem retired_ok (off : Nat) {i : Instr} {ins : DecodedInstruction} (h : retired i = some ins)
    (hwf : i.wf = true) : (OutRec.instr off ins).ok = true := by
  obtain ⟨hdst, hsrc, himm, hmem⟩ := retired_operandsOk h hwf
  obtain ⟨hlow, hhigh⟩ := retired_length h
  have hboth : (ins.destination.isMem && ins.source.isMem) = false := by
    rcases hmem with hmem | hmem <;> simp [hmem]
  simp [OutRec.ok, hdst, hsrc, himm, hboth, hlow, hhigh]

/-- Settles O21: a form retires its instruction or takes the unrecognized-opcode outcome, and both append one record. -/
theorem everyFormCompletesWithFrame : Obligations.EveryFormCompletesWithFrame := by
  intro i s
  obtain ⟨ins, hins, hlen, hexec⟩ | ⟨b, rfl, hexec⟩ := exec_cases i s
  · exact ⟨s.retire ins, .instr s.cursor ins, hexec, rfl, rfl, hlen, by simp [hlen], rfl, rfl, fun _ => rfl,
      retired_ok s.cursor hins, rfl⟩
  · exact ⟨s.raise (.unrecognized b), .unrec s.cursor b, hexec, rfl, rfl, rfl, rfl, rfl, rfl, fun _ => rfl, id, rfl⟩

/-! ## The log (R26) -/

/-- A form's meaning with another log in place of the state's: the same next state, and the same record appended. -/
theorem exec_withLog {i : Instr} {s t : State} (h : exec i s = .next t) :
    ∃ r, t.out = s.out ++ [r] ∧ ∀ o, exec i { s with out := o } = .next { t with out := o ++ [r] } := by
  obtain ⟨ins, hins, -, hexec⟩ | ⟨b, rfl, -⟩ := exec_cases i s
  · cases hexec.symm.trans h
    refine ⟨.instr s.cursor ins, rfl, fun o => ?_⟩
    obtain ⟨ins', hins', -, hexec'⟩ | ⟨b, rfl, -⟩ := exec_cases i { s with out := o }
    · cases hins.symm.trans hins'
      exact hexec'
    · cases hins
  · cases h
    exact ⟨.unrec s.cursor b, rfl, fun _ => rfl⟩

/-- Settles O37: status, cursor, buffer and window are the same with another log, so each case of the step is. -/
theorem logIsAppendOnlyAndNeverRead : Obligations.LogIsAppendOnlyAndNeverRead := by
  intro s t h
  obtain ⟨hrun, ⟨hend, rfl⟩ | ⟨hlt, win, hwin, ⟨i, hi, hexec⟩ | ⟨b0, n, hdec, rfl⟩⟩⟩ := step_cases h
  · refine ⟨[], by simp, by simp, fun o => ?_⟩
    rw [List.append_nil]
    exact step_at_end hrun hend
  · obtain ⟨r, hout, hlog⟩ := exec_withLog hexec
    refine ⟨[r], by simp, hout, fun o => ?_⟩
    refine (step_of_window (s := { s with out := o }) hrun hlt hwin).trans ?_
    rw [hi]
    exact hlog o
  · refine ⟨[.trunc s.cursor b0 n], by simp, rfl, fun o => ?_⟩
    refine (step_of_window (s := { s with out := o }) hrun hlt hwin).trans ?_
    rw [hdec]
    rfl

/-! ## The invariant (R25 to R29, R232 to R236) -/

namespace State

theorem statusAgrees_run {s : State} (h : s.status = .run) : s.StatusAgrees ↔ ∀ r ∈ s.out, r.isTrunc = false := by
  simp [StatusAgrees, statusCheck, h]

theorem statusAgrees_done {s : State} (h : s.status = .done) :
    s.StatusAgrees ↔ s.cursor = s.buf.size ∧ ∀ r ∈ s.out, r.isTrunc = false := by
  simp [StatusAgrees, statusCheck, h]

theorem Inv.cursor_le {s : State} (hs : s.Inv) : s.cursor ≤ s.buf.size :=
  let ⟨⟨_, hc⟩, _⟩ := hs
  hc

theorem Inv.noTrunc {s : State} (hs : s.Inv) (hrun : s.status = .run) : ∀ r ∈ s.out, r.isTrunc = false := by
  obtain ⟨-, -, -, -, hagrees⟩ := hs
  exact (statusAgrees_run hrun).1 hagrees

end State

/-- A record that DEC gives on the window is what DEC gives at its offset. -/
theorem faithful_of_dec {s : State} {win : List Byte} {p : DecPorts} (hwin : s.window = some win)
    (hdec : dec s.cursor win = some p) (hoff : p.record.off = s.cursor) : p.record.faithful s.buf = true := by
  have hat : decAt s.buf p.record.off = some p := by
    rw [hoff, decAt_window, hwin]
    exact hdec
  simp [OutRec.faithful, hat]

theorem commitPorts_out (p : DecPorts) (s : State) : (commitPorts p s).out = s.out ++ [p.record] := by
  unfold commitPorts
  split <;> rfl

/-- The parts of the invariant that speak of one record more: it starts at the old cursor, ends at the new one, is
allowed by the record types and is what DEC gives. The status is the rest. -/
theorem State.Inv.append {s t : State} {r : OutRec} (hs : s.Inv) (hbuf : t.buf = s.buf) (hout : t.out = s.out ++ [r])
    (hoff : r.off = s.cursor) (hcur : t.cursor = s.cursor + r.len) (hle : t.cursor ≤ s.buf.size)
    (hok : r.ok = true) (hfaith : r.faithful s.buf = true) (hstatus : t.StatusAgrees) : t.Inv := by
  obtain ⟨⟨hwf, -⟩, hrecords, htiled, hfaithful, -⟩ := hs
  simp only [RecordsOk, Faithful, List.all_eq_true] at hrecords hfaithful
  refine ⟨⟨hbuf ▸ hwf, hbuf ▸ hle⟩, ?_, ?_, ?_, hstatus⟩
  · simpa [RecordsOk, hout, or_imp, forall_and, hok] using hrecords
  · rw [Tiled, hout]
    exact tile_append 0 s.cursor t.cursor s.out r htiled hoff hcur.symm
  · simpa [Faithful, hout, hbuf, or_imp, forall_and, hfaith] using hfaithful

theorem State.Inv.of_finish {s : State} (hs : s.Inv) (hrun : s.status = .run) (hend : s.cursor = s.buf.size) :
    s.finish.Inv := by
  have hagrees : s.finish.StatusAgrees := (statusAgrees_done rfl).2 ⟨hend, hs.noTrunc hrun⟩
  obtain ⟨hbounds, hrecords, htiled, hfaithful, -⟩ := hs
  exact ⟨hbounds, hrecords, htiled, hfaithful, hagrees⟩

/-- A form that the decoder reads in the window keeps the invariant. -/
theorem State.Inv.of_exec {s t : State} {win : List Byte} {i : Instr} (hs : s.Inv) (hrun : s.status = .run)
    (hwin : s.window = some win) (hi : decode win = .instr i) (hexec : exec i s = .next t) : t.Inv := by
  obtain ⟨t', r, hexec', hout, hoff, hlen, hcur, hstatus, hbuf, -, hok, htrunc⟩ := everyFormCompletesWithFrame i s
  cases hexec'.symm.trans hexec
  obtain ⟨hpresent, p, hdec, -, -, hcommit⟩ := exec_eq_commitPorts hi s
  have hrec : p.record = r := by
    cases hexec.symm.trans hcommit
    simpa [commitPorts_out] using hout
  have hfits : i.length ≤ s.avail := window_len hwin ▸ hpresent
  have hbound : t.cursor ≤ s.buf.size := by
    have hc := hs.cursor_le
    unfold avail at hfits
    omega
  refine hs.append hbuf hout hoff (by rw [hcur, hlen]) hbound (hok (wf_of_decode hi)) ?_ ?_
  · exact hrec ▸ faithful_of_dec hwin hdec (hrec ▸ hoff)
  · rw [statusAgrees_run (hstatus.trans hrun), hout]
    simpa [or_imp, forall_and, htrunc] using hs.noTrunc hrun

/-- Taking the truncated-instruction outcome keeps the invariant: fewer bytes than `WIN` are left, so the window is all
of them. -/
theorem State.Inv.of_truncated {s : State} {win : List Byte} {b0 : Byte} {n : Nat} (hs : s.Inv) (hrun : s.status = .run)
    (hwin : s.window = some win) (h : decode win = .reject (.truncated b0 n)) : (s.raise (.truncated b0 n)).Inv := by
  obtain ⟨hdec, hb0, hn, hlow, hhigh⟩ := dec_of_truncated s.cursor h
  have hleft : n = s.buf.size - s.cursor := by
    have hw : n = min 6 (s.buf.size - s.cursor) := hn.trans (window_len hwin)
    omega
  refine hs.append (r := .trunc s.cursor b0 n) rfl rfl rfl rfl hs.cursor_le ?_ (faithful_of_dec hwin hdec rfl) ?_
  · simp [OutRec.ok, hb0, hlow, hhigh]
  · simpa [StatusAgrees, statusCheck, hleft] using hs.noTrunc hrun

/-- Settles O42: the three things a step can do, each of which keeps the invariant. -/
theorem stepKeepsInvariant : Obligations.StepKeepsInvariant := by
  intro s t hs h
  obtain ⟨hrun, ⟨hend, rfl⟩ | ⟨-, win, hwin, ⟨i, hi, hexec⟩ | ⟨b0, n, htrunc, rfl⟩⟩⟩ := step_cases h
  · exact hs.of_finish hrun hend
  · exact hs.of_exec hrun hwin hi hexec
  · exact hs.of_truncated hrun hwin htrunc

end Sys2Proof.Machine
end

section
/-! Proofs of the memory family (20_memory.md): no step writes the buffer (R42), and what of it a step reads (R41). -/

namespace Sys2Proof.Machine

/-! ## The buffer is never written (R42) -/

theorem exec_buf {i : Instr} {s t : State} (h : exec i s = .next t) : t.buf = s.buf := by
  obtain ⟨ins, -, -, hexec⟩ | ⟨b, rfl, hexec⟩ := exec_cases i s
  · cases hexec.symm.trans h
    exact State.retire_buf ins s
  · cases hexec.symm.trans h
    exact State.raise_buf (.unrecognized b) s

/-- A step keeps the buffer: finishing, a form's meaning and taking an outcome all do. -/
theorem step_buf {s t : State} (h : step s = .next t) : t.buf = s.buf := by
  obtain ⟨-, ⟨-, rfl⟩ | ⟨-, win, -, ⟨i, -, hexec⟩ | ⟨b0, n, -, rfl⟩⟩⟩ := step_cases h
  · exact State.finish_buf s
  · exact exec_buf hexec
  · exact State.raise_buf (.truncated b0 n) s

/-- Settles O36: the buffer after a step is the same memory, so its length and its reads are the same. -/
theorem stepNeverWritesBuffer : Obligations.StepNeverWritesBuffer := by
  intro s t h
  have hbuf := step_buf h
  exact ⟨hbuf, by rw [hbuf], fun a => by rw [hbuf]⟩

/-! ## The window is all that is read (R41) -/

theorem State.avail_setBuf {m : Memory} {s : State} (hsize : m.size = s.buf.size) : (s.setBuf m).avail = s.avail := by
  simp [avail, hsize]

/-- Another buffer of the same length that agrees on the window's offsets has the same window. -/
theorem State.window_setBuf {m : Memory} {s : State} {win : List Byte} (hsize : m.size = s.buf.size)
    (hagree : ∀ i, i < 6 → s.cursor + i < s.buf.size → m.read (s.cursor + i) = s.buf.read (s.cursor + i))
    (hwin : s.window = some win) : (s.setBuf m).window = some win := by
  obtain ⟨hlen, hread⟩ := Memory.readRange_eq_some.1 hwin
  have havail : (s.setBuf m).avail = s.avail := avail_setBuf hsize
  refine Memory.readRange_eq_some.2 ⟨hlen.trans havail.symm, fun i hi => ?_⟩
  rw [havail] at hi
  have hwithin : i < 6 ∧ s.cursor + i < s.buf.size := by
    simp only [avail, Config.windowBytes] at hi
    omega
  obtain ⟨hsix, hbelow⟩ := hwithin
  calc m.read (s.cursor + i) = s.buf.read (s.cursor + i) := hagree i hsix hbelow
    _ = win[i]? := hread i hi

/-- A form's meaning does not read the buffer: with another one in its place the rest of the next state is the same. -/
theorem exec_setBuf {i : Instr} {s t : State} (m : Memory) (h : exec i s = .next t) :
    exec i (s.setBuf m) = .next (t.setBuf m) := by
  obtain ⟨ins, hins, -, hexec⟩ | ⟨b, rfl, -⟩ := exec_cases i s
  · cases hexec.symm.trans h
    obtain ⟨ins', hins', -, hexec'⟩ | ⟨b, rfl, -⟩ := exec_cases i (s.setBuf m)
    · cases hins.symm.trans hins'
      exact hexec'
    · cases hins
  · cases h
    rfl

/-- Settles O38: the end of the buffer and the window are the same with the other buffer, so each case of the step is. -/
theorem stepReadsOnlyWindow : Obligations.StepReadsOnlyWindow := by
  intro s t m hsize hagree h
  obtain ⟨hrun, ⟨hend, rfl⟩ | ⟨hlt, win, hwin, hdo⟩⟩ := step_cases h
  · exact step_at_end (s := s.setBuf m) hrun (hend.trans hsize.symm)
  · have hstep : step (s.setBuf m) = runDecoded (decode win) (s.setBuf m) :=
      step_of_window hrun (hlt.trans_eq hsize.symm) (State.window_setBuf hsize hagree hwin)
    refine hstep.trans ?_
    obtain ⟨i, hi, hexec⟩ | ⟨b0, n, hdec, rfl⟩ := hdo
    · rw [hi]
      exact exec_setBuf m hexec
    · rw [hdec]
      rfl

end Sys2Proof.Machine
end

section
/-! Rules about the encoder: the decoder reads every well-formed form from its encoding, whatever it reads was read from
its encoding, and the length of the encoding is `Need`. -/

namespace Sys2Proof.Machine

/-! ## Decode of encode -/

theorem ne_of_hasBaseIndexForm {rm : Code} (h : hasBaseIndexForm rm = true) : rm ≠ 0b110#3 := bne_iff_ne.1 h

theorem classify_of_wf_unrec {b : Byte} (h : (Instr.unrec b).wf = true) : classify b = .unrec := by
  simpa [Instr.wf, classify_unrec_iff] using h

/-- The encoder's first byte selects the form's shape, and the fields of its ModRM byte select the row; `rm = 110` is
no base/index form, so a `MEM0` row is not read as a direct address (R68). -/
theorem decode_encode_append {i : Instr} (hwf : i.wf = true) (rest : List Byte) :
    decode (encode i ++ rest) = .instr i := by
  cases i with
  | movRmMem0 d w reg rm => simp [encode, decode, instrOf, instrRm, ne_of_hasBaseIndexForm hwf]
  | movRmRegRr | movRmDirect | movRmMem8 | movRmMem16 => simp [encode, decode, instrOf, instrRm]
  | movImmReg8 | movImmReg16 => simp [encode, decode, instrOf, instrIr]
  | movImmMem0_8 x rm imm => simp [encode, decode, instrOf, instrIm, instrIm8, ne_of_hasBaseIndexForm hwf]
  | movImmMem0_16 x rm imm => simp [encode, decode, instrOf, instrIm, instrIm16, ne_of_hasBaseIndexForm hwf]
  | movImmMemRr8 | movImmDirect8 | movImmMem8_8 | movImmMem16_8 =>
    simp [encode, decode, instrOf, instrIm, instrIm8]
  | movImmMemRr16 | movImmDirect16 | movImmMem8_16 | movImmMem16_16 =>
    simp [encode, decode, instrOf, instrIm, instrIm16]
  | movAccMem8 | movAccMem16 => simp [encode, decode, instrOf, instrAm]
  | movMemAcc8 | movMemAcc16 => simp [encode, decode, instrOf, instrMa]
  | unrec b => simp [encode, decode, instrOf, classify_of_wf_unrec hwf]

/-! ## Encode of decode: each field that the decoder takes off the front is one that the encoder writes -/

theorem modRm_of_fieldMod {m : BitVec 2} {b : Byte} (h : fieldMod b = m) : modRm m (fieldReg b) (fieldRm b) = b :=
  h ▸ modRm_fields b

theorem modRm_of_fieldMod_fieldRm {m : BitVec 2} {rm : Code} {b : Byte} (hm : fieldMod b = m) (hrm : fieldRm b = rm) :
    modRm m (fieldReg b) rm = b :=
  hrm ▸ modRm_of_fieldMod hm

theorem encode_prefix_of_some {p t : List Byte} {i j : Instr} (hj : encode j = p) (h : some j = some i) :
    encode i <+: p ++ t := by
  obtain rfl : j = i := Option.some.inj h
  exact hj ▸ List.prefix_append _ t

theorem encode_prefix_of_take8 {p t : List Byte} {f : Byte × List Byte → Option Instr} {i : Instr}
    (hf : ∀ b t', f (b, t') = some i → encode i <+: p ++ [b] ++ t') (h : (take8 t).bind f = some i) :
    encode i <+: p ++ t := by
  obtain ⟨⟨b, t'⟩, htake, hi⟩ := Option.bind_eq_some_iff.1 h
  obtain rfl : t = b :: t' := take8_eq_some.1 htake
  simpa using hf b t' hi

theorem encode_prefix_of_take16 {p t : List Byte} {f : Word × List Byte → Option Instr} {i : Instr}
    (hf : ∀ v t', f (v, t') = some i → encode i <+: p ++ wordBytes v ++ t') (h : (take16 t).bind f = some i) :
    encode i <+: p ++ t := by
  obtain ⟨⟨v, t'⟩, htake, hi⟩ := Option.bind_eq_some_iff.1 h
  obtain rfl : t = wordBytes v ++ t' := take16_eq_some.1 htake
  simpa using hf v t' hi

theorem encode_prefix_of_instrRm {b0 : Byte} {t : List Byte} {i : Instr} (hk : classify b0 = .rm)
    (h : instrRm b0 t = some i) : encode i <+: [b0] ++ t := by
  have hop := opRm_fields b0 hk
  refine encode_prefix_of_take8 (fun b1 t h => ?_) h
  dsimp only at h
  split at h
  next hm => exact encode_prefix_of_some (by simp [encode, hop, modRm_of_fieldMod hm]) h
  next hm =>
    split at h
    next h6 =>
      refine encode_prefix_of_take16 (fun a t => encode_prefix_of_some ?_) h
      simp [encode, hop, modRm_of_fieldMod_fieldRm hm h6]
    next => exact encode_prefix_of_some (by simp [encode, hop, modRm_of_fieldMod hm]) h
  next hm =>
    refine encode_prefix_of_take8 (fun disp t => encode_prefix_of_some ?_) h
    simp [encode, hop, modRm_of_fieldMod hm]
  next hm =>
    refine encode_prefix_of_take16 (fun disp t => encode_prefix_of_some ?_) h
    simp [encode, hop, modRm_of_fieldMod hm]

theorem encode_prefix_of_instrIr {b0 : Byte} {t : List Byte} {i : Instr} (hk : classify b0 = .ir)
    (h : instrIr b0 t = some i) : encode i <+: [b0] ++ t := by
  have hop := ir_fields b0 hk
  unfold instrIr at h
  split at h
  next hw =>
    rw [if_pos hw] at hop
    exact encode_prefix_of_take16 (fun imm t => encode_prefix_of_some (by simp [encode, ← hop])) h
  next hw =>
    rw [if_neg hw] at hop
    exact encode_prefix_of_take8 (fun imm t => encode_prefix_of_some (by simp [encode, ← hop])) h

theorem encode_prefix_of_instrIm8 {b1 : Byte} {t : List Byte} {i : Instr} (h : instrIm8 b1 t = some i) :
    encode i <+: [0b11000110#8, b1] ++ t := by
  simp only [instrIm8] at h
  split at h
  next hm =>
    refine encode_prefix_of_take8 (fun imm t => encode_prefix_of_some ?_) h
    simp [encode, modRm_of_fieldMod hm]
  next hm =>
    split at h
    next h6 =>
      refine encode_prefix_of_take16 (fun a t => encode_prefix_of_take8 fun imm t => encode_prefix_of_some ?_) h
      simp [encode, modRm_of_fieldMod_fieldRm hm h6]
    next =>
      refine encode_prefix_of_take8 (fun imm t => encode_prefix_of_some ?_) h
      simp [encode, modRm_of_fieldMod hm]
  next hm =>
    refine encode_prefix_of_take8 (fun disp t => encode_prefix_of_take8 fun imm t => encode_prefix_of_some ?_) h
    simp [encode, modRm_of_fieldMod hm]
  next hm =>
    refine encode_prefix_of_take16 (fun disp t => encode_prefix_of_take8 fun imm t => encode_prefix_of_some ?_) h
    simp [encode, modRm_of_fieldMod hm]

theorem encode_prefix_of_instrIm16 {b1 : Byte} {t : List Byte} {i : Instr} (h : instrIm16 b1 t = some i) :
    encode i <+: [0b11000111#8, b1] ++ t := by
  simp only [instrIm16] at h
  split at h
  next hm =>
    refine encode_prefix_of_take16 (fun imm t => encode_prefix_of_some ?_) h
    simp [encode, modRm_of_fieldMod hm]
  next hm =>
    split at h
    next h6 =>
      refine encode_prefix_of_take16 (fun a t => encode_prefix_of_take16 fun imm t => encode_prefix_of_some ?_) h
      simp [encode, modRm_of_fieldMod_fieldRm hm h6]
    next =>
      refine encode_prefix_of_take16 (fun imm t => encode_prefix_of_some ?_) h
      simp [encode, modRm_of_fieldMod hm]
  next hm =>
    refine encode_prefix_of_take8 (fun disp t => encode_prefix_of_take16 fun imm t => encode_prefix_of_some ?_) h
    simp [encode, modRm_of_fieldMod hm]
  next hm =>
    refine encode_prefix_of_take16 (fun disp t => encode_prefix_of_take16 fun imm t => encode_prefix_of_some ?_) h
    simp [encode, modRm_of_fieldMod hm]

theorem encode_prefix_of_instrIm {b0 : Byte} {t : List Byte} {i : Instr} (hk : classify b0 = .im)
    (h : instrIm b0 t = some i) : encode i <+: [b0] ++ t := by
  have hop := im_fields b0 hk
  refine encode_prefix_of_take8 (fun b1 t h => ?_) h
  dsimp only at h
  split at h
  next hw =>
    rw [hop, if_pos hw]
    exact encode_prefix_of_instrIm16 h
  next hw =>
    rw [hop, if_neg hw]
    exact encode_prefix_of_instrIm8 h

theorem encode_prefix_of_instrAm {b0 : Byte} {t : List Byte} {i : Instr} (hk : classify b0 = .am)
    (h : instrAm b0 t = some i) : encode i <+: [b0] ++ t := by
  have hop := am_fields b0 hk
  refine encode_prefix_of_take16 (fun a t => encode_prefix_of_some ?_) h
  cases hw : fieldW b0 <;> rw [hw] at hop <;> simp [encode, hop]

theorem encode_prefix_of_instrMa {b0 : Byte} {t : List Byte} {i : Instr} (hk : classify b0 = .ma)
    (h : instrMa b0 t = some i) : encode i <+: [b0] ++ t := by
  have hop := ma_fields b0 hk
  refine encode_prefix_of_take16 (fun a t => encode_prefix_of_some ?_) h
  cases hw : fieldW b0 <;> rw [hw] at hop <;> simp [encode, hop]

theorem encode_prefix_of_instrOf {b0 : Byte} {t : List Byte} {i : Instr} (h : instrOf b0 t = some i) :
    encode i <+: [b0] ++ t := by
  unfold instrOf at h
  split at h
  next hk => exact encode_prefix_of_instrRm hk h
  next hk => exact encode_prefix_of_instrIr hk h
  next hk => exact encode_prefix_of_instrIm hk h
  next hk => exact encode_prefix_of_instrAm hk h
  next hk => exact encode_prefix_of_instrMa hk h
  next => exact encode_prefix_of_some rfl h

theorem encode_prefix_of_decode {win : List Byte} {i : Instr} (h : decode win = .instr i) : encode i <+: win := by
  obtain ⟨b0, t, rfl, hi⟩ := decode_eq_instr_iff.1 h
  exact encode_prefix_of_instrOf hi

/-! ## Lengths -/

theorem encode_length (i : Instr) : (encode i).length = i.length := by
  cases i <;> rfl

/-- A form that the decoder reads from two bytes or more has the length `Need` (R72). -/
theorem need_of_decode {b0 b1 : Byte} {t : List Byte} {i : Instr} (h : decode (b0 :: b1 :: t) = .instr i) :
    need b0 b1 = i.length := by
  obtain ⟨_, _, hwin, hi⟩ := decode_eq_instr_iff.1 h
  cases hwin
  by_cases hk : classify b0 = .unrec
  · obtain rfl : .unrec b0 = i := by simpa [instrOf_unrec hk] using hi
    exact need_unrec b1 hk
  · obtain ⟨ins, hins⟩ := Option.isSome_iff_exists.1 (isMove_instrOf hk hi).2
    have hsel : selectExtractor (classify b0) (b0 :: b1 :: t) = some ins := by
      rw [← instrOf_retired, hi]; exact hins
    exact (selectExtractor_length hsel).symm.trans (retired_bytesConsumed hins)

theorem two_le_length {i : Instr} (h : ∀ b, i ≠ .unrec b) : 2 ≤ i.length := by
  obtain ⟨ins, hins, hlen, -⟩ | ⟨b, rfl, -⟩ := exec_cases i .reset
  · exact hlen ▸ (retired_length hins).1
  · exact absurd rfl (h b)

end Sys2Proof.Machine
end

section
/-! Rules about the opcode table: the row of a form matches the form's first bytes, and no two rows match the same
bytes (R77). -/

namespace Sys2Proof.Machine

/-! ## Two rows never match the same bytes -/

/-- An `exclude` pair of `r` stands among the bits that `r'` fixes. -/
def excludesRow (r r' : TableRow) : Bool :=
  r.exclude.any fun e => r'.mask &&& e.2 == e.2 && r'.value &&& e.2 == e.1

/-- Two rows differ on the bits that both fix, or one of them excludes the other. -/
def rowsApart (r r' : TableRow) : Bool :=
  r.value &&& r'.mask != r'.value &&& r.mask || excludesRow r r' || excludesRow r' r

theorem hits_iff {r : TableRow} {v : Word} :
    r.hits v = true ↔ v &&& r.mask = r.value ∧ ∀ e ∈ r.exclude, v &&& e.2 ≠ e.1 := by
  simp [TableRow.hits]

theorem not_hits_of_excludesRow {r r' : TableRow} {v : Word} (h : excludesRow r r' = true) (hr : r.hits v = true) :
    ¬ r'.hits v = true := by
  intro hr'
  obtain ⟨e, he, hmask, hvalue⟩ : ∃ e ∈ r.exclude, r'.mask &&& e.2 = e.2 ∧ r'.value &&& e.2 = e.1 := by
    simpa [excludesRow] using h
  refine (hits_iff.1 hr).2 e he ?_
  calc v &&& e.2 = v &&& r'.mask &&& e.2 := by rw [BitVec.and_assoc, hmask]
    _ = e.1 := by rw [(hits_iff.1 hr').1, hvalue]

theorem not_hits_of_rowsApart {r r' : TableRow} {v : Word} (h : rowsApart r r' = true) (hr : r.hits v = true) :
    ¬ r'.hits v = true := by
  intro hr'
  obtain (hdiff | hex) | hex : (r.value &&& r'.mask ≠ r'.value &&& r.mask ∨ excludesRow r r' = true) ∨
      excludesRow r' r = true := by simpa [rowsApart] using h
  · refine hdiff ?_
    rw [← (hits_iff.1 hr).1, ← (hits_iff.1 hr').1, BitVec.and_assoc, BitVec.and_assoc, BitVec.and_comm r.mask]
  · exact not_hits_of_excludesRow hex hr hr'
  · exact not_hits_of_excludesRow hex hr' hr

theorem instructionRows_apart : instructionRows.Pairwise fun r r' => rowsApart r r' = true := by decide

theorem matchingRows_of_hits {b0 b1 : Byte} {row : TableRow} (hmem : row ∈ instructionRows)
    (hhit : row.hits (b0 ++ b1) = true) : matchingRows b0 b1 = [row] := by
  have hrow : row ∈ instructionRows.filter (·.hits (b0 ++ b1)) := List.mem_filter.2 ⟨hmem, hhit⟩
  have hall : ∀ r ∈ instructionRows.filter (·.hits (b0 ++ b1)), r.hits (b0 ++ b1) = true :=
    fun r hr => (List.mem_filter.1 hr).2
  have hapart := instructionRows_apart.filter (·.hits (b0 ++ b1))
  unfold matchingRows
  generalize instructionRows.filter (·.hits (b0 ++ b1)) = rows at hrow hall hapart
  match rows with
  | [] => cases hrow
  | [r] => rw [List.mem_singleton.1 hrow]
  | r :: r' :: rows =>
    have hr' := hall r' (by simp)
    exact absurd hr' (not_hits_of_rowsApart (List.rel_of_pairwise_cons hapart (by simp)) (hall r (by simp)))

theorem hits_of_bytes {row : TableRow} {b0 b1 : Byte} (hmem : row ∈ instructionRows)
    (hfirst : row.hitsFirst b0 = true) (hsecond : row.hitsSecond b1 = true) : row.hits (b0 ++ b1) = true := by
  rw [hits_split row (excl row hmem), hfirst, hsecond]; rfl

/-- No instruction row matches an unrecognized first byte. -/
theorem hitsFirst_unrec : ∀ b0 : Byte, classify b0 = .unrec → ∀ r ∈ instructionRows, r.hitsFirst b0 = false := by
  decide

theorem matchingRows_unrec {b0 : Byte} (hk : classify b0 = .unrec) (b1 : Byte) : matchingRows b0 b1 = [unrecRow] := by
  have hnone : instructionRows.filter (·.hits (b0 ++ b1)) = [] := by
    refine List.filter_eq_nil_iff.2 fun r hr => ?_
    rw [hits_split r (excl r hr), hitsFirst_unrec b0 hk r hr]
    simp
  rw [matchingRows, hnone]

/-! ## A form's row matches its bytes -/

theorem opRm_and_mask : ∀ d w : Bool, opRm d w &&& 0xFC#8 = 0x88#8 := by decide
theorem ir8_and_mask : ∀ r : Code, (0b10110#5 ++ r : Byte) &&& 0xF8#8 = 0xB0#8 := by decide
theorem ir16_and_mask : ∀ r : Code, (0b10111#5 ++ r : Byte) &&& 0xF8#8 = 0xB8#8 := by decide
theorem modRm_and_modMask : ∀ (m : BitVec 2) (r x : Code), modRm m r x &&& 0xC0#8 = m ++ 0#6 := by decide
theorem modRm_and_modRmMask_iff : ∀ r x : Code, modRm 0b00#2 r x &&& 0xC7#8 = 0x06#8 ↔ x = 0b110#3 := by decide

/-- The row at the form's place in the table bears its name and length and matches the bytes `b0` and `b1`. The forms
are declared in the order of the rows, so that place is the constructor's index. -/
def RowMatches (i : Instr) (b0 b1 : Byte) : Prop :=
  ∃ row, instructionRows[i.ctorIdx]? = some row ∧ row.mnemonic = i.mnemonic ∧ row.length = i.length ∧
    row.format = classify b0 ∧ row.hitsFirst b0 = true ∧ row.hitsSecond b1 = true

theorem rowMatches_of_encode {i : Instr} (hwf : i.wf = true) (hmove : ∀ b, i ≠ .unrec b) {rest t : List Byte}
    {b0 b1 : Byte} (h : encode i ++ rest = b0 :: b1 :: t) : RowMatches i b0 b1 := by
  cases i with
  | movRmRegRr | movRmMem8 | movRmMem16 =>
    cases h
    exact ⟨_, rfl, rfl, rfl, by simp, by simp [TableRow.hitsFirst, highByte, opRm_and_mask],
      by simp [TableRow.hitsSecond, lowByte, modRm_and_modMask]⟩
  | movRmMem0 =>
    cases h
    exact ⟨_, rfl, rfl, rfl, by simp, by simp [TableRow.hitsFirst, highByte, opRm_and_mask],
      by simp [TableRow.hitsSecond, lowByte, modRm_and_modMask, modRm_and_modRmMask_iff,
        ne_of_hasBaseIndexForm hwf]⟩
  | movRmDirect =>
    cases h
    exact ⟨_, rfl, rfl, rfl, by simp, by simp [TableRow.hitsFirst, highByte, opRm_and_mask],
      by simp [TableRow.hitsSecond, lowByte, modRm_and_modRmMask_iff]⟩
  | movImmReg8 | movImmReg16 =>
    cases h
    exact ⟨_, rfl, rfl, rfl, by simp, by simp [TableRow.hitsFirst, highByte, ir8_and_mask, ir16_and_mask],
      by simp [TableRow.hitsSecond, lowByte]⟩
  | movImmMemRr8 | movImmMem8_8 | movImmMem16_8 | movImmMemRr16 | movImmMem8_16 | movImmMem16_16 =>
    cases h
    exact ⟨_, rfl, rfl, rfl, by simp, rfl, by simp [TableRow.hitsSecond, lowByte, modRm_and_modMask]⟩
  | movImmMem0_8 | movImmMem0_16 =>
    cases h
    exact ⟨_, rfl, rfl, rfl, by simp, rfl,
      by simp [TableRow.hitsSecond, lowByte, modRm_and_modMask, modRm_and_modRmMask_iff,
        ne_of_hasBaseIndexForm hwf]⟩
  | movImmDirect8 | movImmDirect16 =>
    cases h
    exact ⟨_, rfl, rfl, rfl, by simp, rfl, by simp [TableRow.hitsSecond, lowByte, modRm_and_modRmMask_iff]⟩
  | movAccMem8 | movAccMem16 | movMemAcc8 | movMemAcc16 =>
    cases h
    exact ⟨_, rfl, rfl, rfl, by simp, rfl, by simp [TableRow.hitsSecond, lowByte]⟩
  | unrec b => exact absurd rfl (hmove b)

/-- Whatever the decoder reads from two bytes or more, exactly its row matches them. -/
theorem matchingRows_of_decode {b0 b1 : Byte} {t : List Byte} {i : Instr} (h : decode (b0 :: b1 :: t) = .instr i) :
    ∃ row, matchingRows b0 b1 = [row] ∧ row.format = classify b0 ∧ row.mnemonic = i.mnemonic ∧
      row.length = i.length := by
  have hwf := wf_of_decode h
  obtain ⟨rest, hbytes⟩ := encode_prefix_of_decode h
  by_cases hmove : ∀ b, i ≠ .unrec b
  · obtain ⟨row, hrow, hname, hlen, hformat, hfirst, hsecond⟩ := rowMatches_of_encode hwf hmove hbytes
    have hmem : row ∈ instructionRows := List.mem_of_getElem? hrow
    exact ⟨row, matchingRows_of_hits hmem (hits_of_bytes hmem hfirst hsecond), hformat, hname, hlen⟩
  · obtain ⟨b, rfl⟩ := not_forall_not.1 hmove
    obtain rfl : b = b0 := (List.cons.inj hbytes).1
    have hk := classify_of_wf_unrec hwf
    exact ⟨unrecRow, matchingRows_unrec hk b1, hk.symm, rfl, rfl⟩

theorem exists_decode (b0 b1 : Byte) : ∃ t i, decode (b0 :: b1 :: t) = .instr i := by
  have hpresent : ¬ (List.replicate 4 0#8).length + 2 < need b0 b1 := Nat.not_lt.2 (need_le b0 b1)
  obtain ⟨i, hi⟩ := Option.ne_none_iff_exists'.1 (mt (instrOf_none b0 b1 _).1 hpresent)
  exact ⟨_, i, decode_eq_instr_iff.2 ⟨b0, _, rfl, hi⟩⟩

end Sys2Proof.Machine
end

section
/-! Rules about the buffer with a table word placed in it. -/

namespace Sys2Proof.Machine

theorem tableWordBytes_length (nbits w : Nat) : (tableWordBytes nbits w).length = Config.windowBytes := by
  unfold tableWordBytes
  dsimp only
  split <;> rfl

theorem decodeTableWord_eq_some {nbits w : Nat} {i : Instr} (h : decodeTableWord nbits w = some i) :
    decode (tableWordBytes nbits w) = .instr i := by
  unfold decodeTableWord at h
  split at h
  next hdec =>
    cases h
    exact hdec
  next => cases h

theorem placeAt_holdsAt (m : Memory) (a : Nat) (bs : List Byte) : (m.placeAt a bs).holdsAt a bs = true := by
  refine Memory.holdsAt_iff.2 fun i hi => ?_
  have hpre : ((m.bytes ++ List.replicate (a - m.bytes.length) 0#8).take a).length = a := by simp; omega
  rw [Memory.placeAt, Memory.ofBytes_read, List.append_assoc, List.getElem?_append_right (by omega), hpre,
    Nat.add_sub_cancel_left, List.getElem?_append_left hi]

theorem placeAt_size_ge (m : Memory) (a : Nat) (bs : List Byte) : a + bs.length ≤ (m.placeAt a bs).size := by
  simp [Memory.placeAt]
  omega

theorem withFetchWord_size_gt (s : State) (nbits w : Nat) :
    (s.withFetchWord nbits w).cursor < (s.withFetchWord nbits w).buf.size := by
  have hsize := placeAt_size_ge s.buf s.cursor (tableWordBytes nbits w)
  rw [tableWordBytes_length] at hsize
  exact Nat.lt_of_lt_of_le (Nat.lt_add_of_pos_right (by decide)) hsize

/-- The six bytes of a placed table word fill the window. -/
theorem window_withFetchWord (s : State) (nbits w : Nat) :
    (s.withFetchWord nbits w).window = some (tableWordBytes nbits w) := by
  have hlen := tableWordBytes_length nbits w
  obtain ⟨rest, hwin, -⟩ := State.window_of_holds (s := s.withFetchWord nbits w)
    ⟨Memory.placeAt_wf _ _ _, (withFetchWord_size_gt s nbits w).le⟩ (placeAt_holdsAt s.buf s.cursor _) hlen.le
  have hrest : rest = [] := by
    have hshown := State.window_len hwin
    have hle : (s.withFetchWord nbits w).avail ≤ Config.windowBytes := Nat.min_le_left _ _
    rw [List.length_append, hlen] at hshown
    exact List.length_eq_zero_iff.1 (by omega)
  simpa [hrest] using hwin

end Sys2Proof.Machine
end

section
/-! Proofs of the encoding family (30_encoding.md): the decoder and the encoder are inverse to each other, the lengths of
the encodings, the opcode table, the fields and the effective addresses. -/

namespace Sys2Proof.Machine

/-- Settles O7, by the case analysis over the forms in `decode_encode_append`. -/
theorem decodeOfEncode : Obligations.DecodeOfEncode := fun _ rest hwf => decode_encode_append hwf rest

/-- Settles O8: along the decoder, each field it takes off the front is one the encoder writes. -/
theorem encodeOfDecode : Obligations.EncodeOfDecode := fun _ _ h => ⟨wf_of_decode h, encode_prefix_of_decode h⟩

/-- Settles O9: the decoder reads the form back, so its length is `Need`. -/
theorem encodedLengthIsNeed : Obligations.EncodedLengthIsNeed := by
  refine fun i hwf => ⟨encode_length i, ?need, ?one, ?range⟩
  case need =>
    intro rest b0 b1 t hbytes
    exact need_of_decode (hbytes ▸ decode_encode_append hwf rest)
  case one =>
    rintro ⟨b, rfl⟩
    rfl
  case range => exact fun hmove => ⟨two_le_length hmove, (instr_length_range i).2⟩

/-- Settles O10: every two bytes begin some form, and the form's row is the only one that matches them. -/
theorem opcodeTableSelectsOneRow : Obligations.OpcodeTableSelectsOneRow := by
  constructor
  · intro b0 b1
    obtain ⟨t, i, h⟩ := exists_decode b0 b1
    obtain ⟨row, hrows, hformat, -, hlen⟩ := matchingRows_of_decode h
    exact ⟨row, hrows, hformat, hlen.trans (need_of_decode h).symm⟩
  · intro b0 b1 t i h
    obtain ⟨row, hrows, -, hname, hlen⟩ := matchingRows_of_decode h
    exact ⟨row, hrows, hname, hlen⟩

/-- Settles O26: the placed word is the window, and the step runs what the decoder reads from the window. -/
theorem fetchWordIsRunNext : Obligations.FetchWordIsRunNext := by
  intro s nbits w i h
  refine ⟨?_, rfl, rfl, Memory.placeAt_wf _ _ _⟩
  rw [step_of_window rfl (withFetchWord_size_gt s nbits w) (window_withFetchWord s nbits w),
    decodeTableWord_eq_some h]
  rfl

/-! ## Fields, effective addresses and written words -/

theorem fields_of_byte : ∀ b : Byte, fieldD b = b.getLsbD 1 ∧ fieldW b = b.getLsbD 0 ∧ fieldWIr b = b.getLsbD 3 ∧
    b = fieldMod b ++ fieldReg b ++ fieldRm b ∧ fieldRegIr b = fieldRm b :=
  fun b => ⟨rfl, rfl, rfl, (modRm_fields b).symm, rfl⟩

/-- Settles O4: shape by shape, the row of R66's table. -/
theorem extractorFieldValidity : Obligations.ExtractorFieldValidity := by
  intro k win
  cases k <;> exact ⟨rfl, rfl, rfl, rfl, rfl, fields_of_byte⟩

theorem winWord_eq {win : List Byte} {p : Nat} {lo hi : Byte} (hlo : win[p]? = some lo) (hhi : win[p + 1]? = some hi) :
    winWord win p = some (le16 lo hi) := by
  simp [winWord, hlo, hhi]

/-- Settles O5: one arm of the resolver for each `mod`. -/
theorem rmSixDependsOnMod : Obligations.RmSixDependsOnMod := by
  intro w win lo hi hlo hhi
  have hword := winWord_eq hlo hhi
  refine ⟨?direct, ?disp8, ?disp16, rfl, rfl⟩
  case direct => simp [resolveRm, hword, rmDirect]
  case disp8 => simp [resolveRm, hlo, rmDisp8]
  case disp16 => simp [resolveRm, hword, rmDisp16]

/-- Settles O6: each word is decoded. -/
theorem writtenWordsDecode : Obligations.WrittenWordsDecode := by
  unfold Obligations.WrittenWordsDecode
  decide

/-- Settles O50: the table, entry by entry. -/
theorem effectiveAddressTable : Obligations.EffectiveAddressTable := rfl

end Sys2Proof.Machine
end

section
/-! Rules about DEC on the bytes of one unit: the bytes that are there, the form they give, and the window that begins
with them. -/

namespace Sys2Proof.Machine

/-- With `Need` bytes present the decoder reads a form (R72, R105). -/
theorem exists_instrOf {b0 b1 : Byte} {t : List Byte} (h : need b0 b1 ≤ (b0 :: b1 :: t).length) :
    ∃ i, instrOf b0 (b1 :: t) = some i := by
  refine Option.ne_none_iff_exists'.1 fun hnone => ?_
  exact absurd ((instrOf_none b0 b1 t).1 hnone) (Nat.not_lt.2 h)

theorem need_of_instrOf {b0 b1 : Byte} {t : List Byte} {i : Instr} (h : instrOf b0 (b1 :: t) = some i) :
    need b0 b1 = i.length :=
  need_of_decode (decode_eq_instr_iff.2 ⟨b0, b1 :: t, rfl, h⟩)

/-- The bytes a form was read from are the first ones of the window, as many as the form is long. -/
theorem take_length_of_decode {win : List Byte} {i : Instr} (h : decode win = .instr i) :
    win.take i.length = encode i := by
  rw [← encode_length i]
  exact (List.prefix_iff_eq_take.1 (encode_prefix_of_decode h)).symm

/-- A window that shows the same bytes of the unit gives the same form, whatever follows them (R106). -/
theorem decode_of_take_eq {win win' : List Byte} {i : Instr} (h : decode win = .instr i)
    (htake : win.take i.length = win'.take i.length) : decode win' = .instr i := by
  have hsplit : win' = encode i ++ win'.drop i.length := by
    rw [← take_length_of_decode h, htake, List.take_append_drop]
  rw [hsplit]
  exact decode_encode_append (wf_of_decode h) _

/-! ## The window at the cursor -/

namespace State

theorem window_of_read {s : State} {b0 : Byte} (hb : s.InBounds) (h0 : s.buf.read s.cursor = some b0) :
    ∃ rest, s.window = some (b0 :: rest) ∧ s.cursor < s.buf.size :=
  window_of_holds (bs := [b0]) hb (by simpa [Memory.holdsAt_iff] using h0) (by simp)

theorem window_of_read_two {s : State} {b0 b1 : Byte} (hb : s.InBounds) (h0 : s.buf.read s.cursor = some b0)
    (h1 : s.buf.read (s.cursor + 1) = some b1) :
    ∃ rest, s.window = some (b0 :: b1 :: rest) ∧ s.cursor + 1 < s.buf.size := by
  have hholds : s.buf.holdsAt s.cursor [b0, b1] = true := by
    refine Memory.holdsAt_iff.2 fun i hi => ?_
    obtain rfl | rfl : i = 0 ∨ i = 1 := by simp at hi; omega
    · exact h0
    · exact h1
  exact window_of_holds hb hholds (by simp)

/-- A window of less than six bytes is all that is left of the buffer (R7). -/
theorem avail_of_lt {s : State} (h : s.buf.size - s.cursor < Config.windowBytes) :
    s.avail = s.buf.size - s.cursor := Nat.min_eq_right h.le

end State

/-- Where bytes of a recognized unit are missing at the end of the buffer, the decoder rejects the window with all the
bytes that are left (R107). -/
theorem decode_window_of_missing {s : State} {b0 : Byte} (hb : s.InBounds) (h0 : s.buf.read s.cursor = some b0)
    (hk : classify b0 ≠ .unrec)
    (hmissing : s.cursor + 1 = s.buf.size ∨
      ∃ b1, s.buf.read (s.cursor + 1) = some b1 ∧ s.buf.size < s.cursor + need b0 b1) :
    ∃ win, s.window = some win ∧ decode win = .reject (.truncated b0 (s.buf.size - s.cursor)) := by
  obtain hlast | ⟨b1, h1, hshort⟩ := hmissing
  · obtain ⟨rest, hwin, -⟩ := State.window_of_read hb h0
    have hleft : s.buf.size - s.cursor = 1 := by omega
    have hlen : (b0 :: rest).length = 1 := by
      rw [State.window_len hwin, State.avail_of_lt (by rw [hleft]; decide), hleft]
    obtain rfl : rest = [] := by simpa using hlen
    exact ⟨[b0], hwin, (decode_truncated_iff _ _ _).2 ⟨hleft, [], rfl, hk, .inl rfl⟩⟩
  · obtain ⟨rest, hwin, hlt⟩ := State.window_of_read_two hb h0 h1
    have hmax := need_le b0 b1
    have hleft : s.buf.size - s.cursor < 6 := by omega
    have hlen : (b0 :: b1 :: rest).length = s.buf.size - s.cursor := by
      rw [State.window_len hwin, State.avail_of_lt hleft]
    exact ⟨_, hwin, (decode_truncated_iff _ _ _).2
      ⟨hlen.symm, b1 :: rest, rfl, hk, .inr ⟨b1, rest, rfl, by omega⟩⟩⟩

end Sys2Proof.Machine
end

section
/-! Proofs of the classifier and multiplexer family (40_classifier_and_mux.md): the five tests, DEC against the row
decoder, truncation, the bytes DEC depends on, and the two exceptional outcomes of a step. -/

namespace Sys2Proof.Machine

/-! ## The classifier (R101, R102) -/

/-- No byte matches two of the tests. -/
def TestsApart (b0 : Byte) (x y : Shape × (Byte → Bool)) : Prop := (x.2 b0 && y.2 b0) = false

theorem testsApart_symm {b0 : Byte} {x y : Shape × (Byte → Bool)} (h : TestsApart b0 x y) : TestsApart b0 y x := by
  rwa [TestsApart, Bool.and_comm]

/-- Tests of which at most one matches may be tried in any order. -/
theorem firstMatch_perm {b0 : Byte} {l l' : List (Shape × (Byte → Bool))} (hperm : l.Perm l')
    (hapart : l.Pairwise (TestsApart b0)) : firstMatch l b0 = firstMatch l' b0 := by
  induction hperm with
  | nil => rfl
  | cons x _ ih => rw [firstMatch, firstMatch, ih hapart.of_cons]
  | swap x y l =>
    have hyx : (y.2 b0 && x.2 b0) = false := List.rel_of_pairwise_cons hapart List.mem_cons_self
    cases hx : x.2 b0 <;> cases hy : y.2 b0 <;> simp [firstMatch, hx, hy] at hyx ⊢
  | trans hperm _ ih ih' => exact (ih hapart).trans (ih' (hperm.pairwise hapart testsApart_symm))

theorem classifierTests_apart : ∀ b0 : Byte, classifierTests.Pairwise (TestsApart b0) := by
  unfold TestsApart
  decide

/-- Settles O3: no byte matches two of the five tests, so their order does not matter. -/
theorem classifierOrderIrrelevant : Obligations.ClassifierOrderIrrelevant := fun _ hperm b0 =>
  (firstMatch_perm hperm.symm (classifierTests_apart b0)).symm

theorem classify_rm_iff : ∀ b : Byte, classify b = .rm ↔ 0x88 ≤ b.toNat ∧ b.toNat ≤ 0x8B := by decide
theorem classify_ir_iff : ∀ b : Byte, classify b = .ir ↔ 0xB0 ≤ b.toNat ∧ b.toNat ≤ 0xBF := by decide
theorem classify_im_iff : ∀ b : Byte, classify b = .im ↔ b.toNat = 0xC6 ∨ b.toNat = 0xC7 := by decide
theorem classify_am_iff : ∀ b : Byte, classify b = .am ↔ b.toNat = 0xA2 ∨ b.toNat = 0xA3 := by decide
theorem classify_ma_iff : ∀ b : Byte, classify b = .ma ↔ b.toNat = 0xA0 ∨ b.toNat = 0xA1 := by decide

/-- Settles O2: the byte set of each shape, and the census over all 256 bytes. -/
theorem classifierByteSets : Obligations.ClassifierByteSets := by
  refine ⟨fun b => ?sets, ?census⟩
  case sets =>
    exact ⟨classify_rm_iff b, classify_ir_iff b, classify_im_iff b, classify_am_iff b, classify_ma_iff b,
      classify_unrec_iff b⟩
  case census => decide +kernel

/-! ## DEC (R105 to R107) -/

/-- Settles O11: what the decoder reads means what SEQ does with DEC's outputs, and what it rejects DEC truncates. -/
theorem decAgreesWithDecoder : Obligations.DecAgreesWithDecoder := by
  constructor
  · exact fun s win i h => (exec_eq_commitPorts h s).2
  · intro off win b0 avail h
    obtain ⟨hdec, -, hlen, -, -⟩ := dec_of_truncated off h
    obtain ⟨-, t, rfl, -, -⟩ := (decode_truncated_iff win b0 avail).1 h
    exact ⟨hdec, hlen, rfl⟩

/-- Settles O12: one byte, fewer than `Need`, and `Need` or more. -/
theorem decTruncatesWhenBytesMissing : Obligations.DecTruncatesWhenBytesMissing := by
  refine fun off b0 hk => ⟨dec_one off hk, fun b1 t => ⟨fun hshort => ?short, fun henough => ?enough, need_le b0 b1⟩⟩
  case short =>
    have hmax := need_le b0 b1
    exact ⟨by rw [dec_two off b1 t hk, if_pos hshort], by simp, by omega⟩
  case enough =>
    obtain ⟨i, hi⟩ := exists_instrOf henough
    obtain ⟨ins, hins, -, hdec⟩ := dec_of_instrOf off hk hi
    rw [need_of_instrOf hi]
    exact ⟨ins, hdec, retired_bytesConsumed hins⟩

/-- Settles O13: both windows give the form whose encoding is the unit's bytes, and DEC gives that form's record. -/
theorem decDependsOnUnitBytesOnly : Obligations.DecDependsOnUnitBytesOnly := by
  intro off b0 b1 t t' henough _ htake
  by_cases hk : classify b0 = .unrec
  · rw [dec_unrec off hk, dec_unrec off hk]
  · obtain ⟨i, hi⟩ := exists_instrOf henough
    rw [need_of_instrOf hi] at htake
    have hdecode : decode (b0 :: b1 :: t) = .instr i := decode_eq_instr_iff.2 ⟨b0, b1 :: t, rfl, hi⟩
    obtain ⟨_, _, hwin, hi'⟩ := decode_eq_instr_iff.1 (decode_of_take_eq hdecode htake)
    cases hwin
    obtain ⟨ins, hins, -, hdec⟩ := dec_of_instrOf off hk hi
    obtain ⟨ins', hins', -, hdec'⟩ := dec_of_instrOf off hk hi'
    cases hins.symm.trans hins'
    rw [hdec, hdec']

/-! ## Exceptional outcomes (R104, R107, R250, R252) -/

theorem decode_unrec {b0 : Byte} (hk : classify b0 = .unrec) (t : List Byte) :
    decode (b0 :: t) = .instr (.unrec b0) :=
  decode_eq_instr_iff.2 ⟨b0, t, rfl, instrOf_unrec hk t⟩

/-- Settles O20: the row takes the unrecognized-opcode outcome. -/
theorem unrecognizedRow : Obligations.UnrecognizedRow := fun _ _ => rfl

/-- Settles O31: the window begins with the byte, and the step runs the catch-all row. -/
theorem unrecognizedByteIsSkipped : Obligations.UnrecognizedByteIsSkipped := by
  refine ⟨fun off b0 rest hk => dec_unrec off hk rest, fun s b0 hb hrun h0 hk => ⟨?step, ?text⟩⟩
  case step =>
    obtain ⟨rest, hwin, hlt⟩ := State.window_of_read hb h0
    rw [step_of_window hrun hlt hwin, decode_unrec hk]
    exact unrecognizedRow b0 s
  case text =>
    intro t ht
    obtain ⟨hunrec, -⟩ := ht
    obtain ⟨-, -, hspelled⟩ := hunrec b0
    exact hspelled

/-- Settles O33: the decoder rejects the window with the bytes that are left, so the step takes the
truncated-instruction outcome, which is final. -/
theorem truncatedUnitEndsRun : Obligations.TruncatedUnitEndsRun := by
  intro s b0 hb hrun h0 hk hmissing
  obtain ⟨-, -, hlt⟩ := State.window_of_read hb h0
  obtain ⟨win, hwin, hdecode⟩ := decode_window_of_missing hb h0 hk hmissing
  obtain ⟨-, -, -, hpos, hmax⟩ := dec_of_truncated s.cursor hdecode
  refine ⟨?step, step_trunc rfl, hpos, hmax, rfl, rfl⟩
  rw [step_of_window hrun hlt hwin, hdecode]
  rfl

end Sys2Proof.Machine
end

section
/-! Rules about a step on an encoding in the buffer, and about the r/m operand and the instructions of shape RM. -/

namespace Sys2Proof.Machine

/-- Where the buffer holds a well-formed form's encoding at the cursor, the window begins with it, so the decoder reads
the form and the step is its meaning, whatever follows (R230). -/
theorem step_of_holdsAt_encode {s : State} {i : Instr} (hb : s.InBounds) (hrun : s.status = .run) (hwf : i.wf = true)
    (hholds : s.buf.holdsAt s.cursor (encode i) = true) : step s = exec i s := by
  obtain ⟨hmin, hmax⟩ := instr_length_range i
  rw [← encode_length] at hmin hmax
  obtain ⟨rest, hwin, hend⟩ := State.window_of_holds hb hholds hmax
  have hlt : s.cursor < s.buf.size := by omega
  rw [step_of_window hrun hlt hwin, decode_encode_append hwf]
  rfl

/-! ## The r/m operand (R69) -/

theorem resolveRm_isImmediate {w : Bool} {mod : BitVec 2} {rm : Code} {p : Nat} {win : List Byte} {m : Operand × Nat}
    (h : resolveRm w mod rm p win = some m) : m.1.isImmediate = false := by
  unfold resolveRm at h
  split at h
  · cases h
    rfl
  · split at h
    · obtain ⟨_, _, rfl⟩ := Option.map_eq_some_iff.1 h
      rfl
    · cases h
      rfl
  · obtain ⟨_, _, rfl⟩ := Option.map_eq_some_iff.1 h
    rfl
  · obtain ⟨_, _, rfl⟩ := Option.map_eq_some_iff.1 h
    rfl

theorem not_sizeDirective_prefix_regName :
    ∀ (wd : Width) (w : Bool) (code : Code), ¬ (sizeDirective wd).toList <+: (regName w code).toList := by
  intro wd
  cases wd <;> decide

theorem not_sizeDirective_prefix_bracket (wd : Width) (text : String) :
    ¬ (sizeDirective wd).toList <+: ("[" ++ text).toList := by
  cases wd <;> simp [sizeDirective]

/-- Only an immediate takes a size directive (R207). -/
theorem not_sizeDirective_prefix_operandText {o : Operand} (ho : o.isImmediate = false) (ins : DecodedInstruction)
    (wd : Width) : ¬ (sizeDirective wd).toList <+: (operandText o ins).toList := by
  cases o with
  | register w code => exact not_sizeDirective_prefix_regName wd w code
  | directMemory a =>
    rw [operandText, String.append_assoc]
    exact not_sizeDirective_prefix_bracket wd _
  | indexedMemory rm disp =>
    rw [operandText, String.append_assoc, String.append_assoc]
    exact not_sizeDirective_prefix_bracket wd _
  | immediate v width => cases ho

/-! ## The instructions of shape RM (R120, R126) -/

theorem regRmMove_eq (d w : Bool) (reg : Code) (m : Operand × Nat) :
    regRmMove d w reg m =
      ⟨.mov, if d then .register w reg else m.1, if d then m.1 else .register w reg, 2 + m.2⟩ := by
  cases d <;> rfl

/-- The log and the cursor after a unit of shape RM; status and buffer stay (R230, R232). -/
theorem retire_regRmMove (d w : Bool) (reg : Code) (m : Operand × Nat) (s : State) :
    s.retire (regRmMove d w reg m) =
      { s with
        out := s.out ++ [.instr s.cursor
          ⟨.mov, if d then .register w reg else m.1, if d then m.1 else .register w reg, 2 + m.2⟩]
        cursor := s.cursor + (2 + m.2) } := by
  rw [regRmMove_eq]
  rfl

theorem encode_movRmDirect_le16 (d w : Bool) (reg : Code) (lo hi : Byte) :
    encode (.movRmDirect d w reg (le16 lo hi)) = [opRm d w, modRm 0b00#2 reg 0b110#3, lo, hi] := by
  simp [encode]

theorem encode_movRmMem16_le16 (d w : Bool) (reg rm : Code) (lo hi : Byte) :
    encode (.movRmMem16 d w reg rm (le16 lo hi)) = [opRm d w, modRm 0b10#2 reg rm, lo, hi] := by
  simp [encode]

end Sys2Proof.Machine
end

section
/-! Proofs of the register and memory move family (41_mov_rm_reg.md): the five rows, the direction bit, and a step on
the bytes of a unit. -/

namespace Sys2Proof.Machine

/-- Settles O15: each row retires its instruction, whose operands the direction bit orders. -/
theorem registerMemoryRows : Obligations.RegisterMemoryRows := by
  intro d w reg rm addr disp disp8 s
  exact ⟨congrArg Host.Outcome.next (retire_regRmMove d w reg (rmRegister w rm) s),
    congrArg Host.Outcome.next (retire_regRmMove d w reg (rmPlain rm) s),
    congrArg Host.Outcome.next (retire_regRmMove d w reg (rmDirect addr) s),
    congrArg Host.Outcome.next (retire_regRmMove d w reg (rmDisp8 rm disp8) s),
    congrArg Host.Outcome.next (retire_regRmMove d w reg (rmDisp16 rm disp) s)⟩

/-- Settles O22: by the direction bit; neither the register nor the resolved operand is an immediate. -/
theorem directionBitOrdersOperands : Obligations.DirectionBitOrdersOperands := by
  intro d w mod reg rm p win m hm
  have hreg : (Operand.register w reg).isImmediate = false := rfl
  have himm := resolveRm_isImmediate hm
  cases d with
  | false => exact ⟨nofun, fun _ => ⟨rfl, rfl⟩, himm, hreg, not_sizeDirective_prefix_operandText hreg _⟩
  | true => exact ⟨fun _ => ⟨rfl, rfl⟩, nofun, hreg, himm, not_sizeDirective_prefix_operandText himm _⟩

/-- Settles O27: the unit's bytes are the encoding of the row of its addressing mode, so the step is that row's
meaning. -/
theorem registerMemoryUnits : Obligations.RegisterMemoryUnits := by
  intro s d w reg rm lo hi hb hrun
  obtain ⟨hregister, hplain, hdirect, hdisp8, hdisp16⟩ :=
    registerMemoryRows d w reg rm (le16 lo hi) (le16 lo hi) lo s
  refine ⟨fun h => ?register, fun hrm h => ?plain, fun hrm h => ?direct, fun h => ?disp8, fun h => ?disp16,
    fun t => ?text⟩
  case register => exact (step_of_holdsAt_encode (i := .movRmRegRr d w reg rm) hb hrun rfl h).trans hregister
  case plain =>
    have hwf := hasBaseIndexForm_of_ne hrm
    exact (step_of_holdsAt_encode (i := .movRmMem0 d w reg rm) hb hrun hwf h).trans hplain
  case direct =>
    subst hrm
    refine (step_of_holdsAt_encode (i := .movRmDirect d w reg (le16 lo hi)) hb hrun rfl ?_).trans hdirect
    rwa [encode_movRmDirect_le16]
  case disp8 => exact (step_of_holdsAt_encode (i := .movRmMem8 d w reg rm lo) hb hrun rfl h).trans hdisp8
  case disp16 =>
    refine (step_of_holdsAt_encode (i := .movRmMem16 d w reg rm (le16 lo hi)) hb hrun rfl ?_).trans hdisp16
    rwa [encode_movRmMem16_le16]
  case text => rfl

end Sys2Proof.Machine
end

section
/-! Rules about the instructions of shape IR, the bytes of its rows, and the line of an immediate. -/

namespace Sys2Proof.Machine

/-- The log and the cursor after a unit of shape IR; status and buffer stay (R140, R230, R232). -/
theorem retire_immRegMove (w : Bool) (reg : Code) (imm : Operand × Nat) (s : State) :
    s.retire (immRegMove w reg imm) =
      { s with
        out := s.out ++ [.instr s.cursor ⟨.mov, .register w reg, imm.1, 1 + imm.2⟩]
        cursor := s.cursor + (1 + imm.2) } := rfl

theorem encode_movImmReg16_le16 (reg : Code) (lo hi : Byte) :
    encode (.movImmReg16 reg (le16 lo hi)) = [0b10111#5 ++ reg, lo, hi] := by
  simp [encode]

/-- An immediate takes a size directive only where the destination is memory (R207). -/
theorem operandText_immediate_of_not_isMem {ins : DecodedInstruction} (hdst : ins.destination.isMem = false) (v : Int)
    (wd : Width) : operandText (.immediate v wd) ins = decimal v := by
  simp [operandText, hdst]

/-- The line of an immediate to a register: no size directive (R200, R201, R207). -/
theorem fmt_register_immediate (t : DiagTexts) (off n : Nat) (w : Bool) (reg : Code) (v : Int) (wd : Width) :
    fmt t (.instr off ⟨.mov, .register w reg, .immediate v wd, n⟩) = "mov " ++ regName w reg ++ ", " ++ decimal v := by
  have hmem : (Operand.register w reg).isMem = false := rfl
  have himm := operandText_immediate_of_not_isMem (ins := ⟨.mov, .register w reg, .immediate v wd, n⟩) hmem v wd
  exact congrArg ("mov " ++ regName w reg ++ ", " ++ ·) himm

end Sys2Proof.Machine
end

section
/-! Proofs of the immediate-to-register family (42_mov_imm_reg.md): the two rows, and a step on the bytes of a unit. -/

namespace Sys2Proof.Machine

/-- Settles O16: each row retires its instruction, whose immediate is one byte or two. -/
theorem immediateToRegisterRows : Obligations.ImmediateToRegisterRows := fun reg b v s =>
  ⟨congrArg Host.Outcome.next (retire_immRegMove false reg (imm8 b) s),
    congrArg Host.Outcome.next (retire_immRegMove true reg (imm16 v) s)⟩

/-- Settles O28: the unit's bytes are the encoding of the row of its width, so the step is that row's meaning; the
destination is a register, so its line has no size directive. -/
theorem immediateToRegisterUnits : Obligations.ImmediateToRegisterUnits := by
  intro s reg lo hi t hb hrun
  obtain ⟨hbyte, hword⟩ := immediateToRegisterRows reg lo (le16 lo hi) s
  refine ⟨fun h => ?byte, fun h => ?word, fun off n w v wd => ?text⟩
  case byte => exact (step_of_holdsAt_encode (i := .movImmReg8 reg lo) hb hrun rfl h).trans hbyte
  case word =>
    refine (step_of_holdsAt_encode (i := .movImmReg16 reg (le16 lo hi)) hb hrun rfl ?_).trans hword
    rwa [encode_movImmReg16_le16]
  case text => exact fmt_register_immediate t off n w reg v wd

end Sys2Proof.Machine
end

section
/-! Rules about the instructions of shape IM: what DecodeIM reads after the ModRM byte, a step on the bytes of a unit,
and the line of an immediate to memory. -/

namespace Sys2Proof.Machine

/-! ## DecodeIM (R160) -/

theorem resolveRm_cons_cons (w : Bool) (mod : BitVec 2) (rm : Code) (b0 b1 : Byte) (t : List Byte) :
    resolveRm w mod rm 2 (b0 :: b1 :: t) = resolveRm w mod rm 0 t := rfl

/-- The immediate is read directly behind the `k` addressing bytes (R71). -/
theorem immediateAt_append (w : Bool) (addr t : List Byte) :
    immediateAt w addr.length (addr ++ t) = immediateAt w 0 t := by
  cases w <;> simp [immediateAt, winWord, List.getElem?_append_right]

theorem immediateAt_cons_cons (w : Bool) (k : Nat) (b0 b1 : Byte) (t : List Byte) :
    immediateAt w (2 + k) (b0 :: b1 :: t) = immediateAt w k t := by
  rw [Nat.add_comm]
  rfl

/-- What DecodeIM reads: of the ModRM byte only `mod` and `rm` (R160, R166). -/
theorem decodeIm_cons_cons (b0 b1 : Byte) (t : List Byte) :
    decodeIm (b0 :: b1 :: t) =
      (resolveRm (fieldW b0) (fieldMod b1) (fieldRm b1) 0 t).bind fun m =>
        (immediateAt (fieldW b0) m.2 t).map (immRmMove m) := by
  simp [decodeIm, extractFields, resolveRm_cons_cons, immediateAt_cons_cons, immRmMove, Option.map_eq_bind,
    Function.comp_def]

theorem need_of_classify_im {b0 : Byte} (hk : classify b0 = .im) (b1 : Byte) :
    need b0 b1 = 2 + dispLen (fieldMod b1) (fieldRm b1) + if fieldW b0 then 2 else 1 := by
  rw [need, hk]

/-! ## A step on the bytes of a unit -/

theorem exec_of_retired {i : Instr} {ins : DecodedInstruction} (h : retired i = some ins) (s : State) :
    exec i s = .next (s.retire ins) := by
  obtain ⟨ins', hins', -, hexec⟩ | ⟨b, rfl, -⟩ := exec_cases i s
  · cases h.symm.trans hins'
    exact hexec
  · cases h

/-- The log and the cursor after a unit of shape IM; status and buffer stay (R160, R230, R232). -/
theorem retire_immRmMove (m imm : Operand × Nat) (s : State) :
    s.retire (immRmMove m imm) =
      { s with
        out := s.out ++ [.instr s.cursor ⟨.mov, m.1, imm.1, 2 + m.2 + imm.2⟩]
        cursor := s.cursor + (2 + m.2 + imm.2) } := rfl

/-- Where the bytes of an IM unit stand at the cursor, the step retires the instruction that DecodeIM reads, whatever
follows them (R160, R230). -/
theorem step_of_holdsAt_im {s : State} {b0 b1 : Byte} {addr imm : List Byte} {dst src : Operand} {n : Nat}
    (hb : s.InBounds) (hrun : s.status = .run) (hk : classify b0 = .im)
    (hholds : s.buf.holdsAt s.cursor (b0 :: b1 :: (addr ++ imm)) = true) (hlen : (addr ++ imm).length ≤ 4)
    (hdst : ∀ t, resolveRm (fieldW b0) (fieldMod b1) (fieldRm b1) 0 (addr ++ t) = some (dst, addr.length))
    (hsrc : ∀ t, immediateAt (fieldW b0) 0 (imm ++ t) = some (src, n)) :
    step s = .next (s.retire (immRmMove (dst, addr.length) (src, n))) := by
  obtain ⟨rest, hwin, hend⟩ := State.window_of_holds hb hholds (Nat.add_le_add_right hlen 2)
  have hlt : s.cursor < s.buf.size := Nat.lt_of_lt_of_le (Nat.lt_add_of_pos_right (Nat.succ_pos _)) hend
  have hread : decodeIm (b0 :: b1 :: (addr ++ imm ++ rest)) = some (immRmMove (dst, addr.length) (src, n)) := by
    rw [decodeIm_cons_cons, List.append_assoc, hdst, Option.bind_some, immediateAt_append, hsrc, Option.map_some]
  have hrow := instrOf_retired b0 (b1 :: (addr ++ imm ++ rest))
  rw [hk, selectExtractor, hread] at hrow
  obtain ⟨i, hi, hins⟩ := Option.bind_eq_some_iff.1 hrow
  have hdecode : decode (b0 :: b1 :: (addr ++ imm) ++ rest) = .instr i := decode_eq_instr_iff.2 ⟨b0, _, rfl, hi⟩
  rw [step_of_window hrun hlt hwin, hdecode]
  exact exec_of_retired hins s

/-! ## The opcode byte `1100011w` (R64) and the immediates of both widths (R71) -/

theorem classify_opIm : ∀ w : Bool, classify (0b1100011#7 ++ BitVec.ofBool w : Byte) = .im := by decide

theorem fieldW_opIm : ∀ w : Bool, fieldW (0b1100011#7 ++ BitVec.ofBool w : Byte) = w := by decide

/-- The bytes `imm` are an immediate of width `w`: the operand `src`, which takes `n` bytes. -/
def IsImmediateField (w : Bool) (imm : List Byte) (src : Operand) (n : Nat) : Prop :=
  (w = false ∧ ∃ i, imm = [i] ∧ src = .immediate (sext16 i) .byte ∧ n = 1) ∨
    (w = true ∧ ∃ i j, imm = [i, j] ∧ src = .immediate (s16 (le16 i j)) .word ∧ n = 2)

theorem length_le_of_isImmediateField {w : Bool} {imm : List Byte} {src : Operand} {n : Nat}
    (h : IsImmediateField w imm src n) : imm.length ≤ 2 := by
  obtain ⟨-, i, rfl, -, -⟩ | ⟨-, i, j, rfl, -, -⟩ := h <;> simp

theorem immediateAt_of_isImmediateField {w : Bool} {imm : List Byte} {src : Operand} {n : Nat}
    (h : IsImmediateField w imm src n) (t : List Byte) : immediateAt w 0 (imm ++ t) = some (src, n) := by
  obtain ⟨rfl, i, rfl, rfl, rfl⟩ | ⟨rfl, i, j, rfl, rfl, rfl⟩ := h <;> rfl

/-- A step on the opcode byte `1100011w`, the ModRM byte, the addressing bytes and the immediate (R160). -/
theorem step_of_holdsAt_opIm {s : State} {w : Bool} {mod : BitVec 2} {x rm : Code} {addr imm : List Byte}
    {dst src : Operand} {n : Nat} (hb : s.InBounds) (hrun : s.status = .run) (himm : IsImmediateField w imm src n)
    (haddr : addr.length ≤ 2) (hdst : ∀ t, resolveRm w mod rm 0 (addr ++ t) = some (dst, addr.length))
    (hholds : s.buf.holdsAt s.cursor
      ((0b1100011#7 ++ BitVec.ofBool w : Byte) :: modRm mod x rm :: (addr ++ imm)) = true) :
    step s = .next (s.retire (immRmMove (dst, addr.length) (src, n))) := by
  have hlen : (addr ++ imm).length ≤ 4 := by
    rw [List.length_append]
    exact Nat.add_le_add haddr (length_le_of_isImmediateField himm)
  refine step_of_holdsAt_im hb hrun (classify_opIm w) hholds hlen ?_ ?_
  · simpa only [fieldW_opIm, fieldMod_modRm, fieldRm_modRm] using hdst
  · simpa only [fieldW_opIm] using immediateAt_of_isImmediateField himm

/-! ## The line of an immediate to memory -/

/-- The line of an immediate to a direct address names its width (R200, R203, R207). -/
theorem fmt_directMemory_immediate (t : DiagTexts) (off n : Nat) (a v : Int) (wd : Width) :
    fmt t (.instr off ⟨.mov, .directMemory a, .immediate v wd, n⟩) =
      "mov [" ++ decimal a ++ "], " ++ sizeDirective wd ++ decimal v := by
  simp [fmt, instructionText, mnemonicText, operandText, Operand.isMem, String.ext_iff]

end Sys2Proof.Machine
end

section
/-! Proofs of the immediate-to-memory family (43_mov_imm_mem.md): the ignored field, the ten rows, and a step on the
bytes of a unit. -/

namespace Sys2Proof.Machine

/-- Settles O14: DEC reads `mod` and `rm` of the ModRM byte, for the length as for the record. -/
theorem immediateMemoryIgnoresRegField : Obligations.ImmediateMemoryIgnoresRegField := by
  intro off b0 mod x rm t hk
  have hmove : classify b0 ≠ .unrec := by simp [hk]
  have hneed : need b0 (modRm mod x rm) = need b0 (modRm mod 0b000#3 rm) := by simp [need_of_classify_im hk]
  have hread : decodeIm (b0 :: modRm mod x rm :: t) = decodeIm (b0 :: modRm mod 0b000#3 rm :: t) := by
    simp [decodeIm_cons_cons]
  rw [dec_two off _ t hmove, dec_two off _ t hmove, hneed, hk, selectExtractor, selectExtractor, hread]
  rfl

/-- Settles O17: each row retires its instruction, whose immediate is one byte. -/
theorem byteImmediateToMemoryRows : Obligations.ByteImmediateToMemoryRows := fun _ rm addr disp disp8 b s =>
  ⟨congrArg Host.Outcome.next (retire_immRmMove (rmRegister false rm) (imm8 b) s),
    congrArg Host.Outcome.next (retire_immRmMove (rmPlain rm) (imm8 b) s),
    congrArg Host.Outcome.next (retire_immRmMove (rmDirect addr) (imm8 b) s),
    congrArg Host.Outcome.next (retire_immRmMove (rmDisp8 rm disp8) (imm8 b) s),
    congrArg Host.Outcome.next (retire_immRmMove (rmDisp16 rm disp) (imm8 b) s)⟩

/-- Settles O18: each row retires its instruction, whose immediate is two bytes. -/
theorem wordImmediateToMemoryRows : Obligations.WordImmediateToMemoryRows := fun _ rm addr disp v disp8 s =>
  ⟨congrArg Host.Outcome.next (retire_immRmMove (rmRegister true rm) (imm16 v) s),
    congrArg Host.Outcome.next (retire_immRmMove (rmPlain rm) (imm16 v) s),
    congrArg Host.Outcome.next (retire_immRmMove (rmDirect addr) (imm16 v) s),
    congrArg Host.Outcome.next (retire_immRmMove (rmDisp8 rm disp8) (imm16 v) s),
    congrArg Host.Outcome.next (retire_immRmMove (rmDisp16 rm disp) (imm16 v) s)⟩

/-- Settles O29: in each addressing mode the resolver's arm reads the addressing bytes, and the immediate of either
width follows them. -/
theorem immediateToMemoryUnits : Obligations.ImmediateToMemoryUnits := by
  intro s w x rm lo hi imm src n hb hrun himm
  refine ⟨fun h => ?register, fun hrm h => ?plain, fun hrm h => ?direct, fun h => ?disp8, fun h => ?disp16,
    fun t a v => ?text⟩
  case register => exact step_of_holdsAt_opIm (addr := []) hb hrun himm (by simp) (fun _ => rfl) h
  case plain => exact step_of_holdsAt_opIm (mod := 0b00#2) (addr := []) hb hrun himm (by simp) (fun _ => if_neg hrm) h
  case direct =>
    exact step_of_holdsAt_opIm (mod := 0b00#2) (addr := [lo, hi]) hb hrun himm (by simp) (fun _ => if_pos hrm) h
  case disp8 => exact step_of_holdsAt_opIm (addr := [lo]) hb hrun himm (by simp) (fun _ => rfl) h
  case disp16 => exact step_of_holdsAt_opIm (addr := [lo, hi]) hb hrun himm (by simp) (fun _ => rfl) h
  case text => simp [fmt_directMemory_immediate, sizeDirective, String.ext_iff]

end Sys2Proof.Machine
end

section
/-! Rules about the instructions of shapes MA and AM: the record of a unit, a step on its bytes, and its line. -/

namespace Sys2Proof.Machine

/-- The log and the cursor after a unit of shape MA; status and buffer stay (R180, R230, R232). -/
theorem retire_memToAcc (w : Bool) (addr : Word) (s : State) :
    s.retire (memToAcc w addr) =
      { s with
        out := s.out ++ [.instr s.cursor ⟨.mov, .register w 0b000#3, .directMemory (s16 addr), 3⟩]
        cursor := s.cursor + 3 } := rfl

/-- The log and the cursor after a unit of shape AM; status and buffer stay (R183, R230, R232). -/
theorem retire_accToMem (w : Bool) (addr : Word) (s : State) :
    s.retire (accToMem w addr) =
      { s with
        out := s.out ++ [.instr s.cursor ⟨.mov, .directMemory (s16 addr), .register w 0b000#3, 3⟩]
        cursor := s.cursor + 3 } := rfl

/-- The row of shape MA for the width bit `w` (R181, R182). -/
def memAccRow (w : Bool) (addr : Word) : Instr := if w then .movMemAcc16 addr else .movMemAcc8 addr

/-- The row of shape AM for the width bit `w` (R184, R185). -/
def accMemRow (w : Bool) (addr : Word) : Instr := if w then .movAccMem16 addr else .movAccMem8 addr

theorem retired_memAccRow (w : Bool) (addr : Word) : retired (memAccRow w addr) = some (memToAcc w addr) := by
  cases w <;> rfl

theorem retired_accMemRow (w : Bool) (addr : Word) : retired (accMemRow w addr) = some (accToMem w addr) := by
  cases w <;> rfl

theorem wf_memAccRow (w : Bool) (addr : Word) : (memAccRow w addr).wf = true := by cases w <;> rfl

theorem wf_accMemRow (w : Bool) (addr : Word) : (accMemRow w addr).wf = true := by cases w <;> rfl

/-- The opcode byte `1010000w`, then the address, low byte first (R65, R43). -/
theorem encode_memAccRow_le16 (w : Bool) (lo hi : Byte) :
    encode (memAccRow w (le16 lo hi)) = [0b1010000#7 ++ BitVec.ofBool w, lo, hi] := by
  cases w <;> simp [memAccRow, encode]

/-- The opcode byte `1010001w`, then the address, low byte first (R65, R43). -/
theorem encode_accMemRow_le16 (w : Bool) (lo hi : Byte) :
    encode (accMemRow w (le16 lo hi)) = [0b1010001#7 ++ BitVec.ofBool w, lo, hi] := by
  cases w <;> simp [accMemRow, encode]

/-- Where the buffer holds the encoding of a well-formed row at the cursor, the step retires the row's instruction
(R230, R232). -/
theorem step_of_holdsAt_retired {s : State} {i : Instr} {ins : DecodedInstruction} (hb : s.InBounds)
    (hrun : s.status = .run) (hwf : i.wf = true) (hins : retired i = some ins)
    (hholds : s.buf.holdsAt s.cursor (encode i) = true) : step s = .next (s.retire ins) :=
  (step_of_holdsAt_encode hb hrun hwf hholds).trans (exec_of_retired hins s)

/-- The line of a load from a direct address (R200, R203). -/
theorem fmt_register_directMemory (t : DiagTexts) (off n : Nat) (w : Bool) (reg : Code) (a : Int) :
    fmt t (.instr off ⟨.mov, .register w reg, .directMemory a, n⟩) =
      "mov " ++ regName w reg ++ ", [" ++ decimal a ++ "]" := by
  simp [fmt, instructionText, mnemonicText, operandText, String.ext_iff]

/-- The line of a store to a direct address (R200, R203). -/
theorem fmt_directMemory_register (t : DiagTexts) (off n : Nat) (w : Bool) (reg : Code) (a : Int) :
    fmt t (.instr off ⟨.mov, .directMemory a, .register w reg, n⟩) =
      "mov [" ++ decimal a ++ "], " ++ regName w reg := by
  simp [fmt, instructionText, mnemonicText, operandText, String.ext_iff]

end Sys2Proof.Machine
end

section
/-! Proofs of the accumulator family (44_mov_acc_mem.md): the four rows, and a step on the bytes of a unit. -/

namespace Sys2Proof.Machine

/-- Settles O19: each row retires its instruction, whose direction the opcode fixes. -/
theorem accumulatorRows : Obligations.AccumulatorRows := fun addr s =>
  ⟨congrArg Host.Outcome.next (retire_memToAcc false addr s),
    congrArg Host.Outcome.next (retire_memToAcc true addr s),
    congrArg Host.Outcome.next (retire_accToMem false addr s),
    congrArg Host.Outcome.next (retire_accToMem true addr s), rfl, rfl, rfl⟩

/-- Settles O30: the unit's bytes are the encoding of the row of its direction and width, so the step retires that
row's instruction. -/
theorem accumulatorUnits : Obligations.AccumulatorUnits := by
  intro s w lo hi hb hrun
  refine ⟨fun h => ?load, fun h => ?store, fun t a => ⟨?loadText, ?storeText⟩⟩
  case load =>
    rw [← encode_memAccRow_le16] at h
    have hstep := step_of_holdsAt_retired hb hrun (wf_memAccRow w _) (retired_memAccRow w _) h
    rwa [retire_memToAcc] at hstep
  case store =>
    rw [← encode_accMemRow_le16] at h
    have hstep := step_of_holdsAt_retired hb hrun (wf_accMemRow w _) (retired_accMemRow w _) h
    rwa [retire_accToMem] at hstep
  case loadText => simp [fmt_register_directMemory, regName, reg8]
  case storeText => simp [fmt_directMemory_register, regName, reg16, String.ext_iff]

end Sys2Proof.Machine
end

section
/-! Rules about the formatter: decimal numerals, the texts of the operands, what a line is made of, and the default
texts of the two diagnostics (45_formatter.md). -/

namespace Sys2Proof.Machine

/-! ## Decimal numerals (R201) -/

theorem decimal_natCast (n : Nat) : decimal n = n.repr := rfl

theorem decimal_neg_natCast {n : Nat} (hn : 0 < n) : decimal (-(n : Int)) = "-" ++ decimal n := by
  have hneg : -(n : Int) < 0 := by omega
  rw [decimal, if_pos hneg, Int.natAbs_neg, Int.natAbs_natCast, decimal_natCast]

theorem decimal_natCast_toList (n : Nat) : (decimal n).toList = Nat.toDigits 10 n := by
  rw [decimal_natCast, Nat.toList_repr]

theorem isDigit_of_mem_decimal {n : Nat} {c : Char} (hc : c ∈ (decimal n).toList) : c.isDigit = true := by
  rw [decimal_natCast_toList] at hc
  exact Nat.isDigit_of_mem_toDigits (by decide) (by decide) hc

/-- The first digit is that of the quotient by ten, down to a number below ten. -/
theorem head?_toDigits_ne_zero {n : Nat} (hn : n ≠ 0) : (Nat.toDigits 10 n).head? ≠ some '0' := by
  induction n using Nat.base_induction 10 (by decide) with
  | single m hm => simpa [Nat.toDigits_of_lt_base hm] using hn
  | digit m k hk hm ih =>
    rw [← Nat.toDigits_append_toDigits (by decide) hm hk, List.head?_append_of_ne_nil _ Nat.toDigits_ne_nil]
    exact ih hm.ne'

/-- Reading the numeral digit by digit gives the number back. -/
theorem foldl_decimal (n : Nat) :
    (decimal n).toList.foldl (fun acc c => acc * 10 + (c.toNat - 48)) 0 = n := by
  have hread := Nat.ofDigitChars_ten_toDigits (n := n)
  rw [Nat.ofDigitChars_eq_foldl] at hread
  simpa [decimal_natCast_toList, Nat.mul_comm] using hread

/-! ## Operands (R202 to R209) -/

/-- The offset part of a displacement that is not negative (R204). -/
theorem displacementText_of_nonneg {d : Int} (hd : 0 ≤ d) : displacementText (some d) = " + " ++ decimal d := by
  rw [displacementText, if_neg (not_lt.2 hd), Int.natAbs_of_nonneg hd]

/-- The offset part of a negative displacement: its magnitude after the sign (R204, R205). -/
theorem displacementText_of_neg {d : Int} (hd : d < 0) : displacementText (some d) = " - " ++ decimal (-d) := by
  rw [displacementText, if_pos hd, Int.ofNat_natAbs_of_nonpos hd.le]

theorem operandText_indexedMemory_none (rm : Code) (i : DecodedInstruction) :
    operandText (.indexedMemory rm none) i = "[" ++ eaText rm ++ "]" := by
  rw [operandText, displacementText, String.append_empty]

theorem operandText_indexedMemory_some_of_nonneg {d : Int} (hd : 0 ≤ d) (rm : Code) (i : DecodedInstruction) :
    operandText (.indexedMemory rm (some d)) i = "[" ++ eaText rm ++ " + " ++ decimal d ++ "]" := by
  rw [operandText, displacementText_of_nonneg hd, ← String.append_assoc]

theorem operandText_indexedMemory_some_of_neg {d : Int} (hd : d < 0) (rm : Code) (i : DecodedInstruction) :
    operandText (.indexedMemory rm (some d)) i = "[" ++ eaText rm ++ " - " ++ decimal (-d) ++ "]" := by
  rw [operandText, displacementText_of_neg hd, ← String.append_assoc]

/-- Of the instruction, an operand's text reads only the destination (R207, R209). -/
theorem operandText_congr {i j : DecodedInstruction} (h : i.destination = j.destination) (o : Operand) :
    operandText o i = operandText o j := by
  cases o with
  | register w code => rfl
  | directMemory a => rfl
  | indexedMemory rm disp => rfl
  | immediate v width => simp only [operandText, h]

/-- An immediate takes a size directive where the destination is memory (R207). -/
theorem operandText_immediate_of_isMem {i : DecodedInstruction} (hdst : i.destination.isMem = true) (v : Int)
    (wd : Width) : operandText (.immediate v wd) i = sizeDirective wd ++ decimal v := by
  rw [operandText, if_pos hdst]

/-! ## Lines (R200) -/

theorem fmt_instr (t : DiagTexts) (off n : Nat) (dst src : Operand) :
    fmt t (.instr off ⟨.mov, dst, src, n⟩) =
      "mov " ++ operandText dst ⟨.mov, dst, src, n⟩ ++ ", " ++ operandText src ⟨.mov, dst, src, n⟩ := rfl

/-- The line of an immediate to any operand that names memory (R200, R207). -/
theorem fmt_immediate_of_isMem {dst : Operand} (hdst : dst.isMem = true) (t : DiagTexts) (off n : Nat) (src : Operand)
    (v : Int) (wd : Width) :
    fmt t (.instr off ⟨.mov, dst, .immediate v wd, n⟩) =
      "mov " ++ operandText dst ⟨.mov, dst, src, n⟩ ++ (", " ++ sizeDirective wd) ++ decimal v := by
  have hlocal : operandText dst ⟨.mov, dst, .immediate v wd, n⟩ = operandText dst ⟨.mov, dst, src, n⟩ :=
    operandText_congr rfl dst
  rw [fmt_instr, operandText_immediate_of_isMem hdst, hlocal]
  simp only [String.append_assoc]

theorem beginsMov_instr (t : DiagTexts) (off : Nat) (i : DecodedInstruction) : BeginsMov (fmt t (.instr off i)) := by
  obtain ⟨⟨⟩, dst, src, n⟩ := i
  rw [fmt_instr, BeginsMov, String.append_assoc, String.append_assoc, String.toList_append]
  exact List.prefix_append _ _

/-! ## Records by their cause (R250, R252) -/

theorem exists_unrec_of_causeCode {r : OutRec} (h : r.causeCode = some 1) : ∃ off b, r = .unrec off b := by
  cases r with
  | unrec off b => exact ⟨off, b, rfl⟩
  | instr off i => cases h
  | trunc off b0 avail => cases h

theorem exists_trunc_of_causeCode {r : OutRec} (h : r.causeCode = some 2) :
    ∃ off b0 avail, r = .trunc off b0 avail := by
  cases r with
  | trunc off b0 avail => exact ⟨off, b0, avail, rfl⟩
  | instr off i => cases h
  | unrec off b => cases h

/-! ## The default texts of the diagnostics (R212, R213) -/

theorem OneLine.append {s s' : String} (h : OneLine s) (h' : OneLine s') : OneLine (s ++ s') := by
  obtain ⟨hlf, hcr⟩ := h
  obtain ⟨hlf', hcr'⟩ := h'
  simp [OneLine, hlf, hcr, hlf', hcr']

/-- No decimal digit is a line break. -/
theorem oneLine_of_isDigit {s : String} (h : ∀ c ∈ s.toList, c.isDigit = true) : OneLine s :=
  ⟨fun hlf => absurd (h _ hlf) (by decide), fun hcr => absurd (h _ hcr) (by decide)⟩

theorem oneLine_decimal (n : Nat) : OneLine (decimal n) := oneLine_of_isDigit fun _ => isDigit_of_mem_decimal

theorem isDigit_of_mem_bin8 {b : Byte} {c : Char} (hc : c ∈ (bin8 b).toList) : c.isDigit = true := by
  rw [bin8, String.toList_ofList] at hc
  obtain ⟨i, -, rfl⟩ := List.mem_map.1 hc
  split
  · rfl
  · rfl

theorem oneLine_bin8 (b : Byte) : OneLine (bin8 b) := oneLine_of_isDigit fun _ => isDigit_of_mem_bin8

theorem oneLine_default_unrecText (b : Byte) : OneLine (defaultTexts.unrecText b) := by
  have hlead : OneLine "; unrecognized opcode 0b" := ⟨by decide, by decide⟩
  exact hlead.append (oneLine_bin8 b)

theorem oneLine_default_truncText (off : Nat) (b0 : Byte) (avail : Nat) :
    OneLine (defaultTexts.truncText off b0 avail) := by
  have hlead : OneLine "; truncated instruction at " := ⟨by decide, by decide⟩
  have hsep : OneLine ": 0b" := ⟨by decide, by decide⟩
  exact ((hlead.append (oneLine_decimal off)).append hsep).append (oneLine_bin8 b0)

theorem default_unrecText_toList (b : Byte) :
    (defaultTexts.unrecText b).toList = "; unrecognized opcode 0b".toList ++ (bin8 b).toList :=
  String.toList_append

theorem default_truncText_toList (off : Nat) (b0 : Byte) (avail : Nat) :
    (defaultTexts.truncText off b0 avail).toList =
      "; truncated instruction at ".toList ++ ((decimal off).toList ++ (": 0b".toList ++ (bin8 b0).toList)) := by
  have htext : defaultTexts.truncText off b0 avail =
      "; truncated instruction at " ++ (decimal off ++ (": 0b" ++ bin8 b0)) := by
    rw [← String.append_assoc, ← String.append_assoc]
    rfl
  rw [htext, String.toList_append, String.toList_append, String.toList_append]

end Sys2Proof.Machine
end

section
/-! Proofs of the formatter family (45_formatter.md): the numerals, the line of every decoded instruction, and what
tells a diagnostic's line from it. -/

namespace Sys2Proof.Machine

/-- Settles O53: a numeral is the list of the number's decimal digits, which the library reads back. -/
theorem decimalSpelling : Obligations.DecimalSpelling := by
  refine ⟨fun n => ⟨?nonempty, fun _ => isDigit_of_mem_decimal, ?noLeadingZero, foldl_decimal n⟩, rfl,
    fun _ => decimal_neg_natCast⟩
  case nonempty =>
    rw [decimal_natCast_toList]
    exact Nat.toDigits_ne_nil
  case noLeadingZero =>
    rw [decimal_natCast_toList]
    exact head?_toDigits_ne_zero

/-- Settles O54: both default texts are comments of one line, and they differ in their third character. -/
theorem defaultTextsConform : Obligations.DefaultTextsConform := by
  refine ⟨fun b => ⟨oneLine_default_unrecText b, ?unrecNotMov, ?spelling⟩,
    fun off b0 avail => ⟨oneLine_default_truncText off b0 avail, ?truncNotMov, fun b heq => ?differ⟩⟩
  case unrecNotMov => simp [BeginsMov, default_unrecText_toList]
  case spelling =>
    rw [default_unrecText_toList]
    exact (List.suffix_append _ _).isInfix
  case truncNotMov => simp [BeginsMov, default_truncText_toList]
  case differ =>
    have hlists := congrArg String.toList heq
    simp [default_unrecText_toList, default_truncText_toList] at hlists

/-- Settles O55: a decoded instruction's line begins with `mov `, and conforming texts are kept from it and from one
another by their conditions. -/
theorem movLinesAreDecodedInstructions : Obligations.MovLinesAreDecodedInstructions := by
  intro t ⟨hunrec, htrunc⟩ r r'
  refine ⟨?mov, ?apart⟩
  case mov =>
    cases r with
    | instr off i => exact iff_of_true (beginsMov_instr t off i) rfl
    | unrec off b =>
      obtain ⟨-, hnot, -⟩ := hunrec b
      exact iff_of_false hnot nofun
    | trunc off b0 avail =>
      obtain ⟨-, hnot, -⟩ := htrunc off b0 avail
      exact iff_of_false hnot nofun
  case apart =>
    intro hr hr'
    obtain ⟨off, b, rfl⟩ := exists_unrec_of_causeCode hr
    obtain ⟨off', b0, avail, rfl⟩ := exists_trunc_of_causeCode hr'
    obtain ⟨-, -, hne⟩ := htrunc off' b0 avail
    exact (hne b).symm

/-- Settles O51: each operand by its kind, a displacement by its sign, and an immediate by what the destination is. -/
theorem lineForms : Obligations.LineForms := by
  intro t off n w c rm a d v wd dst src line plain
  refine ⟨rfl, rfl, operandText_indexedMemory_none rm _, fun hd => ?nonneg, fun hd => ?neg,
    fun _ => fmt_instr t off n dst src, fun hdst => fmt_immediate_of_isMem hdst t off n src v .byte,
    fun hdst => fmt_immediate_of_isMem hdst t off n src v .word, fmt_register_immediate t off n w c v wd⟩
  case nonneg => exact operandText_indexedMemory_some_of_nonneg hd rm _
  case neg => exact operandText_indexedMemory_some_of_neg hd rm _

/-- Settles O52: the offset part of a zero displacement is `" + 0"`, where that of no displacement is empty. -/
theorem zeroDisplacementIsSpelledOut : Obligations.ZeroDisplacementIsSpelledOut := by
  intro rm i
  have hzero : operandText (.indexedMemory rm (some 0)) i = "[" ++ eaText rm ++ " + 0]" := by
    rw [operandText_indexedMemory_some_of_nonneg le_rfl]
    simp only [String.append_assoc]
    rfl
  refine ⟨hzero, ?_⟩
  rw [hzero, operandText_indexedMemory_none]
  simp

end Sys2Proof.Machine
end

section
/-! Rules about the sequencer's step and runs: the step that the spec writes over DEC, the bytes that are left at the
cursor, the forms that a list of bytes begins with, and how a run ends. -/

namespace Sys2Proof.Machine

/-! ## The step past the end, and the spec's step (R230, R236) -/

theorem step_past_end {s : State} (hrun : s.status = .run) (hgt : s.buf.size < s.cursor) :
    step s = .fault .cursorPastEnd := by
  simp [step, seqStep, runStep, hrun, hgt, hgt.ne']

theorem step_of_no_window {s : State} (hrun : s.status = .run) (hlt : s.cursor < s.buf.size) (hwin : s.window = none) :
    step s = .fault .absentByte := by
  simp [step, seqStep, runStep, hrun, hlt.ne, hlt.le, hwin]

theorem step_ne_next_of_isFinal {s : State} (h : s.isFinal = true) (t : State) : step s ≠ .next t := by
  cases hs : s.status with
  | run => simp [State.isFinal, hs] at h
  | done => simp [step_done hs]
  | trunc => simp [step_trunc hs]

theorem isFinal_eq_false_of_run {s : State} (hrun : s.status = .run) : s.isFinal = false := by
  simp [State.isFinal, hrun]

theorem specStep_at_end {s : State} (hrun : s.status = .run) (hend : s.cursor = s.buf.size) :
    specStep s = some s.finish := by
  simp [specStep, hrun, hend]

theorem specStep_before_end {s : State} (hrun : s.status = .run) (hne : s.cursor ≠ s.buf.size) :
    specStep s = s.window.bind fun win => (dec s.cursor win).map (commitPorts · s) := by
  simp [specStep, hrun, hne, Option.map_eq_bind]

/-- Past the end no byte is available, so the window is empty. -/
theorem State.window_past_end {s : State} (hgt : s.buf.size < s.cursor) : s.window = some [] := by
  have havail : s.avail = 0 := by
    rw [avail, Nat.sub_eq_zero_of_le hgt.le, Nat.min_zero]
  rw [window, havail]
  rfl

/-- What the sequencer does with the decoder's answer is what it does with DEC's outputs (R105, R230). -/
theorem runDecoded_eq_next_iff (s t : State) (win : List Byte) :
    runDecoded (decode win) s = .next t ↔ (dec s.cursor win).map (commitPorts · s) = some t := by
  cases h : decode win with
  | instr i =>
    obtain ⟨-, p, hdec, -, -, hexec⟩ := exec_eq_commitPorts h s
    simp [runDecoded, hexec, hdec]
  | reject r =>
    cases r with
    | noByte =>
      obtain rfl := decode_noByte.1 h
      simp [runDecoded, dec]
    | truncated b0 n =>
      obtain ⟨hdec, -⟩ := dec_of_truncated s.cursor h
      simp [runDecoded, hdec, commitPorts, State.raise]

/-- Where DEC truncates, the decoder rejects the window: a form's record is never of length 0 (R105, R107). -/
theorem decode_of_dec_trunc {off off' : Nat} {win : List Byte} {p : DecPorts} {b0 : Byte} {n : Nat}
    (hdec : dec off win = some p) (hrec : p.record = .trunc off' b0 n) : decode win = .reject (.truncated b0 n) := by
  cases h : decode win with
  | instr i =>
    obtain ⟨-, q, hq, -, hlen, -⟩ := exec_eq_commitPorts h (State.reset.setCursor off)
    cases hdec.symm.trans hq
    have hzero : i.length = 0 := by rw [← hlen, hrec]; rfl
    have hpos := (instr_length_range i).1
    omega
  | reject r =>
    cases r with
    | noByte =>
      obtain rfl := decode_noByte.1 h
      cases hdec
    | truncated c m =>
      obtain ⟨hq, -⟩ := dec_of_truncated off h
      cases hdec.symm.trans hq
      cases hrec
      rfl

/-! ## The bytes left at the cursor -/

namespace State

/-- The bytes of the buffer from the cursor on. -/
def remaining (s : State) : List Byte := s.buf.bytes.drop s.cursor

theorem remaining_length (s : State) : s.remaining.length = s.buf.size - s.cursor := by
  simp [remaining, Memory.bytes, Memory.size]

@[simp] theorem load_remaining (bs : List Byte) : (load bs).remaining = bs := by simp [remaining]

theorem load_inBounds (bs : List Byte) : (load bs).InBounds := ⟨Memory.ofBytes_wf bs, Nat.zero_le _⟩

theorem window_eq_take {s : State} (hb : s.InBounds) : s.window = some (s.remaining.take Config.windowBytes) :=
  window_eq hb.1 hb.2

theorem holdsAt_of_remaining {s : State} {bs rest : List Byte} (hb : s.InBounds) (h : s.remaining = bs ++ rest) :
    s.buf.holdsAt s.cursor bs = true := by
  refine Memory.holdsAt_iff.2 fun i hi => ?_
  rw [Memory.wf_eq_ofBytes hb.1, Memory.ofBytes_read, ← List.getElem?_drop]
  change s.remaining[i]? = _
  rw [h, List.getElem?_append_left hi]

theorem remaining_of_advance {s t : State} {bs rest : List Byte} (hbuf : t.buf = s.buf)
    (hcur : t.cursor = s.cursor + bs.length) (h : s.remaining = bs ++ rest) : t.remaining = rest := by
  rw [remaining, hbuf, hcur, ← List.drop_drop]
  change s.remaining.drop _ = _
  rw [h, List.drop_left]

/-- A state that has moved past bytes that were there is within bounds again. -/
theorem inBounds_of_advance {s t : State} {bs rest : List Byte} (hb : s.InBounds) (hbuf : t.buf = s.buf)
    (hcur : t.cursor = s.cursor + bs.length) (h : s.remaining = bs ++ rest) : t.InBounds := by
  obtain ⟨hwf, hle⟩ := hb
  have hlen : bs.length + rest.length = s.buf.size - s.cursor := by
    rw [← remaining_length, h, List.length_append]
  exact ⟨hbuf ▸ hwf, by rw [hbuf, hcur]; omega⟩

end State

/-- A truncated unit is all that is left of the buffer, so the window is the unit. -/
theorem window_of_remaining_truncated {s : State} {b0 : Byte} {n : Nat} (hb : s.InBounds)
    (h : decode s.remaining = .reject (.truncated b0 n)) : s.window = some s.remaining := by
  obtain ⟨-, -, hn, -, hmax⟩ := dec_of_truncated 0 h
  have hfits : s.remaining.length ≤ Config.windowBytes := by
    rw [← hn]; exact Nat.le_succ_of_le hmax
  rw [State.window_eq_take hb, List.take_of_length_le hfits]

theorem cursor_eq_of_remaining_nil {s : State} (hb : s.InBounds) (h : s.remaining = []) : s.cursor = s.buf.size := by
  have hlen := s.remaining_length
  rw [h, List.length_nil] at hlen
  exact le_antisymm hb.2 (Nat.le_of_sub_eq_zero hlen.symm)

/-- The step on an incomplete unit takes the truncated-instruction outcome (R233). -/
theorem step_of_remaining_truncated {s : State} {b0 : Byte} {n : Nat} (hb : s.InBounds) (hrun : s.status = .run)
    (h : decode s.remaining = .reject (.truncated b0 n)) : step s = .next (s.raise (.truncated b0 n)) := by
  obtain ⟨-, -, hn, hpos, -⟩ := dec_of_truncated 0 h
  have hlt : s.cursor < s.buf.size := by
    rw [hn, State.remaining_length] at hpos
    omega
  rw [step_of_window hrun hlt (window_of_remaining_truncated hb h), h]
  rfl

/-! ## The forms a list of bytes begins with (R238) -/

/-- What is left when every complete unit has been taken off the front: nothing, or an incomplete recognized unit. -/
def IsTail (tail : List Byte) : Prop :=
  tail = [] ∨ ∃ b0, decode tail = .reject (.truncated b0 tail.length)

/-- Every list of bytes is the encodings of well-formed forms and a tail. -/
theorem exists_parse (bs : List Byte) :
    ∃ (is : List Instr) (tail : List Byte), (∀ i ∈ is, i.wf = true) ∧ bs = is.flatMap encode ++ tail ∧
      IsTail tail := by
  induction hn : bs.length using Nat.strong_induction_on generalizing bs with
  | _ n ih =>
    subst hn
    cases h : decode bs with
    | instr i =>
      obtain ⟨rest, rfl⟩ := encode_prefix_of_decode h
      have hpos := (instr_length_range i).1
      rw [← encode_length] at hpos
      obtain ⟨is, tail, hwf, hrest, htail⟩ := ih rest.length (by rw [List.length_append]; omega) rest rfl
      exact ⟨i :: is, tail, List.forall_mem_cons.2 ⟨wf_of_decode h, hwf⟩, by simp [hrest], htail⟩
    | reject r =>
      refine ⟨[], bs, by simp, rfl, ?_⟩
      cases r with
      | noByte => exact .inl (decode_noByte.1 h)
      | truncated b0 n =>
        obtain ⟨rfl, -⟩ := (decode_truncated_iff bs b0 n).1 h
        exact .inr ⟨b0, h⟩

theorem flatMap_encode_length (is : List Instr) : (is.flatMap encode).length = (is.map Instr.length).sum := by
  simp [List.length_flatMap, encode_length]

theorem length_le_flatMap_encode (is : List Instr) : is.length ≤ (is.flatMap encode).length := by
  induction is with
  | nil => exact le_rfl
  | cons i is ih =>
    have hpos := (instr_length_range i).1
    rw [List.flatMap_cons, List.length_append, encode_length, List.length_cons]
    omega

/-! ## Runs -/

theorem runSteps_of_isFinal {s : State} (h : s.isFinal = true) (k : Nat) : runSteps k s = .next s := by
  cases k <;> simp [runSteps, h]

theorem runSteps_succ_of_step {s t : State} (hstep : step s = .next t) (k : Nat) :
    runSteps (k + 1) s = runSteps k t := by
  obtain ⟨hrun, -⟩ := step_cases hstep
  simp [runSteps, isFinal_eq_false_of_run hrun, hstep]

theorem runSteps_succ_of_step_final {s t : State} (hstep : step s = .next t) (h : t.isFinal = true) (k : Nat) :
    runSteps (k + 1) s = .next t := by
  rw [runSteps_succ_of_step hstep, runSteps_of_isFinal h]

/-- A run that has reached a final state stays there, however many steps are left. -/
theorem runSteps_add_of_isFinal {k : Nat} {s t : State} (h : runSteps k s = .next t) (hfinal : t.isFinal = true)
    (j : Nat) : runSteps (k + j) s = .next t := by
  induction k generalizing s with
  | zero =>
    cases h
    exact runSteps_of_isFinal hfinal _
  | succ k ih =>
    rw [Nat.succ_add]
    unfold runSteps at h ⊢
    split at h
    next hs => rw [if_pos hs, h]
    next hs =>
      rw [if_neg hs]
      split at h
      next u hu => simpa [hu] using ih h
      next => cases h
      next => cases h

/-- Two runs from one state that both end, end in the same state. -/
theorem runSteps_final_unique {s t u : State} {j k : Nat} (ht : runSteps j s = .next t) (htf : t.isFinal = true)
    (hu : runSteps k s = .next u) (huf : u.isFinal = true) : u = t := by
  have h := runSteps_add_of_isFinal hu huf j
  rw [Nat.add_comm, runSteps_add_of_isFinal ht htf k] at h
  cases h
  rfl

/-- The meanings of forms one after another always answer a next state: one record each, the cursor moves by their
lengths, status and buffer stay. -/
theorem execAll_completes (is : List Instr) (s : State) :
    ∃ t, execAll is s = .next t ∧ t.cursor = s.cursor + (is.flatMap encode).length ∧ t.status = s.status ∧
      t.buf = s.buf ∧ t.out.length = s.out.length + is.length := by
  induction is generalizing s with
  | nil => exact ⟨s, rfl, rfl, rfl, rfl, rfl⟩
  | cons i is ih =>
    obtain ⟨u, r, hexec, hout, -, -, hcur, hstatus, hbuf, -⟩ := everyFormCompletesWithFrame i s
    obtain ⟨t, hall, htcur, htstatus, htbuf, htout⟩ := ih u
    refine ⟨t, by simp only [execAll, hexec, hall], ?_, htstatus.trans hstatus, htbuf.trans hbuf, ?_⟩
    · rw [htcur, hcur, List.flatMap_cons, List.length_append, encode_length, Nat.add_assoc]
    · rw [htout, hout, List.length_append, List.length_singleton, List.length_cons]
      omega

theorem step_of_remaining_encode {s : State} {i : Instr} {rest : List Byte} (hb : s.InBounds) (hrun : s.status = .run)
    (hwf : i.wf = true) (h : s.remaining = encode i ++ rest) : step s = exec i s :=
  step_of_holdsAt_encode hb hrun hwf (State.holdsAt_of_remaining hb h)

/-- Where the encodings of well-formed forms are left at the cursor, the run does their meanings one after another, one
step each (R237). -/
theorem runSteps_execAll {is : List Instr} {tail : List Byte} {s t : State} (hb : s.InBounds) (hrun : s.status = .run)
    (hwf : ∀ i ∈ is, i.wf = true) (h : s.remaining = is.flatMap encode ++ tail) (hall : execAll is s = .next t)
    (k : Nat) : runSteps (is.length + k) s = runSteps k t := by
  induction is generalizing s with
  | nil =>
    cases hall
    rw [List.length_nil, Nat.zero_add]
  | cons i is ih =>
    obtain ⟨hi, his⟩ := List.forall_mem_cons.1 hwf
    rw [List.flatMap_cons, List.append_assoc] at h
    obtain ⟨u, r, hexec, -, -, -, hcur, hstatus, hbuf, -⟩ := everyFormCompletesWithFrame i s
    have hall' : execAll is u = .next t := by simpa only [execAll, hexec] using hall
    rw [← encode_length] at hcur
    rw [List.length_cons, Nat.succ_add,
      runSteps_succ_of_step ((step_of_remaining_encode hb hrun hi h).trans hexec)]
    exact ih (State.inBounds_of_advance hb hbuf hcur h) (hstatus.trans hrun) his
      (State.remaining_of_advance hbuf hcur h) hall'

/-- What ends a run in the state `u` where the tail is left: `DONE`, or one truncated-instruction outcome. -/
inductive EndsIn (u : State) : List Byte → State → Prop
  | done : EndsIn u [] u.finish
  | trunc {b0 : Byte} {tail : List Byte} (h : decode tail = .reject (.truncated b0 tail.length)) :
    EndsIn u tail (u.raise (.truncated b0 tail.length))

theorem EndsIn.isFinal {u t : State} {tail : List Byte} (h : EndsIn u tail t) : t.isFinal = true := by
  cases h <;> rfl

/-- The log of the final state is longer than the state's before it by no more than the tail's bytes. -/
theorem EndsIn.out_length_le {u t : State} {tail : List Byte} (h : EndsIn u tail t) :
    t.out.length ≤ u.out.length + tail.length := by
  cases h with
  | done => simp
  | trunc h =>
    obtain ⟨-, -, -, hpos, -⟩ := dec_of_truncated 0 h
    simpa using hpos

theorem step_endsIn {u : State} (hb : u.InBounds) (hrun : u.status = .run) (htail : IsTail u.remaining) :
    ∃ t, step u = .next t ∧ EndsIn u u.remaining t := by
  obtain hnil | ⟨b0, hb0⟩ := htail
  · exact ⟨_, step_at_end hrun (cursor_eq_of_remaining_nil hb hnil), hnil ▸ .done⟩
  · exact ⟨_, step_of_remaining_truncated hb hrun hb0, .trunc hb0⟩

/-- A run on encodings of well-formed forms and a tail: the meanings one after another, then the step that ends it. -/
theorem runSteps_of_parse {is : List Instr} {tail : List Byte} {s : State} (hb : s.InBounds) (hrun : s.status = .run)
    (hwf : ∀ i ∈ is, i.wf = true) (h : s.remaining = is.flatMap encode ++ tail) (htail : IsTail tail) :
    ∃ u t, execAll is s = .next u ∧ EndsIn u tail t ∧ ∀ k, is.length < k → runSteps k s = .next t := by
  obtain ⟨u, hall, hcur, hstatus, hbuf, -⟩ := execAll_completes is s
  obtain rfl : u.remaining = tail := State.remaining_of_advance hbuf hcur h
  obtain ⟨t, hstep, hends⟩ := step_endsIn (State.inBounds_of_advance hb hbuf hcur h) (hstatus.trans hrun) htail
  refine ⟨u, t, hall, hends, fun k hk => ?_⟩
  obtain ⟨j, rfl⟩ := Nat.exists_eq_add_of_lt hk
  rw [Nat.add_assoc, runSteps_execAll hb hrun hwf h hall, runSteps_succ_of_step_final hstep hends.isFinal]

/-- A loaded buffer that is encodings of well-formed forms and a tail: its run does the meanings, then ends. -/
theorem runBuffer_of_parse {is : List Instr} {tail : List Byte} (hwf : ∀ i ∈ is, i.wf = true) (htail : IsTail tail) :
    ∃ u t, execAll is (State.load (is.flatMap encode ++ tail)) = .next u ∧ EndsIn u tail t ∧
      runBuffer (is.flatMap encode ++ tail) = .next t ∧ u.cursor = (is.flatMap encode).length ∧
      u.out.length = is.length := by
  obtain ⟨u, t, hall, hends, hrun⟩ :=
    runSteps_of_parse (State.load_inBounds _) (State.load_status _) hwf (State.load_remaining _) htail
  obtain ⟨u', hall', hcur, -, -, hout⟩ := execAll_completes is (State.load (is.flatMap encode ++ tail))
  cases hall.symm.trans hall'
  have hlen := length_le_flatMap_encode is
  refine ⟨u, t, hall, hends, hrun _ ?_, by simpa using hcur, by simpa using hout⟩
  rw [List.length_append]
  omega

end Sys2Proof.Machine
end

section
/-! Proofs of the decode loop family (46_decode_loop.md): the step against the spec's own, what a step does, and how
runs go and end. -/

namespace Sys2Proof.Machine

/-! ## The step (R230 to R233) -/

/-- Settles O34: on the window, the decoder's answer and DEC's outputs lead to the same state; in the other states
neither has a step, or both finish. -/
theorem stepIsSpecStep : Obligations.StepIsSpecStep := by
  intro s t
  cases hs : s.status with
  | done => simp [step_done hs, specStep, hs]
  | trunc => simp [step_trunc hs, specStep, hs]
  | run =>
    obtain hlt | hend | hgt := lt_trichotomy s.cursor s.buf.size
    · rw [specStep_before_end hs hlt.ne]
      cases hwin : s.window with
      | none => simp [step_of_no_window hs hlt hwin]
      | some win =>
        rw [step_of_window hs hlt hwin, runDecoded_eq_next_iff]
        rfl
    · simp [step_at_end hs hend, specStep_at_end hs hend]
    · simp [step_past_end hs hgt, specStep_before_end hs hgt.ne', State.window_past_end hgt, dec]

/-- Settles O35: each case of the step emits its own record. -/
theorem stepAdvancesByRecord : Obligations.StepAdvancesByRecord := by
  intro s t h
  obtain ⟨-, ⟨hend, rfl⟩ | ⟨-, win, -, ⟨i, -, hexec⟩ | ⟨b0, n, -, rfl⟩⟩⟩ := step_cases h
  · exact ⟨le_rfl, .inl ⟨rfl, hend⟩⟩
  · obtain ⟨ins, hins, -, hexec'⟩ | ⟨b, rfl, hexec'⟩ := exec_cases i s
    · cases hexec'.symm.trans hexec
      obtain ⟨hmin, hmax⟩ := retired_length hins
      exact ⟨Nat.le_add_right _ _, .inr (.inl ⟨ins, hmin, hmax, rfl⟩)⟩
    · cases hexec'.symm.trans hexec
      exact ⟨Nat.le_succ _, .inr (.inr (.inl ⟨b, rfl⟩))⟩
  · exact ⟨le_rfl, .inr (.inr (.inr ⟨b0, n, rfl⟩))⟩

/-- Settles O23: both states are at the end of their buffer. -/
theorem endOfBufferIsDone : Obligations.EndOfBufferIsDone := ⟨fun _ => step_at_end, step_at_end rfl rfl⟩

/-- Settles O24: the sequencer runs what the decoder reads from the window. -/
theorem stepRunsDecodedInstruction : Obligations.StepRunsDecodedInstruction := by
  intro s win i hrun hlt hwin hi
  rw [step_of_window hrun hlt hwin, hi]
  rfl

/-- Settles O25: the window begins with the encoding, which the decoder reads back. -/
theorem stepRunsEncodedInstruction : Obligations.StepRunsEncodedInstruction := fun _ _ => step_of_holdsAt_encode

/-- Settles O47: `B0` and the next byte encode a byte immediate to `al`; `90` is a unit of its own. -/
theorem boundariesDependOnEarlierBytes : Obligations.BoundariesDependOnEarlierBytes := by
  intro b rest
  have hmove : step (State.load (0xB0#8 :: b :: rest)) = exec (.movImmReg8 0b000#3 b) _ :=
    step_of_remaining_encode (State.load_inBounds _) rfl rfl (State.load_remaining _)
  have hunrec : step (State.load (0x90#8 :: b :: rest)) = exec (.unrec 0x90#8) _ :=
    step_of_remaining_encode (State.load_inBounds _) rfl rfl (State.load_remaining _)
  exact ⟨_, _, hmove, rfl, hunrec, rfl⟩

/-! ## Final states (R233, R234) -/

theorem exists_step {s : State} (hb : s.InBounds) (hrun : s.status = .run) : ∃ t, step s = .next t := by
  obtain hlt | hend := hb.2.lt_or_eq
  · rw [step_of_window hrun hlt (State.window_eq_take hb)]
    cases h : decode (s.remaining.take Config.windowBytes) with
    | instr i =>
      obtain ⟨t, -, hexec, -⟩ := everyFormCompletesWithFrame i s
      exact ⟨t, hexec⟩
    | reject r =>
      cases r with
      | noByte =>
        have hshown := congrArg List.length (decode_noByte.1 h)
        have hleft := s.remaining_length
        rw [List.length_take, List.length_nil, Config.windowBytes] at hshown
        omega
      | truncated b0 n => exact ⟨_, rfl⟩
  · exact ⟨_, step_at_end hrun hend⟩

theorem State.exists_trunc_of_statusAgrees {s : State} (htrunc : s.status = .trunc) (h : s.StatusAgrees) :
    ∃ b0, OutRec.trunc s.cursor b0 (s.buf.size - s.cursor) ∈ s.out := by
  simp only [StatusAgrees, statusCheck, htrunc] at h
  split at h
  next off b0 avail hlast =>
    simp only [Bool.and_eq_true, beq_iff_eq] at h
    obtain ⟨⟨rfl, rfl⟩, -⟩ := h
    exact ⟨b0, List.mem_of_getLast? hlast⟩
  next => cases h

/-- A record at the cursor that is what DEC gives there is what DEC gives on the window. -/
theorem dec_of_faithful {s : State} {r : OutRec} (h : r.faithful s.buf = true) (hoff : r.off = s.cursor) :
    ∃ win p, s.window = some win ∧ dec s.cursor win = some p ∧ p.record = r := by
  unfold OutRec.faithful at h
  rw [hoff, decAt_window] at h
  split at h
  next p hp =>
    obtain ⟨win, hwin, hdec⟩ := Option.bind_eq_some_iff.1 hp
    exact ⟨win, p, hwin, hdec, beq_iff_eq.1 h⟩
  next => cases h

/-- In a `TRUNC` state the last record is a truncated one, which DEC gives on the window and the record types allow. -/
theorem State.Inv.window_of_trunc {s : State} (hs : s.Inv) (htrunc : s.status = .trunc) :
    1 ≤ s.buf.size - s.cursor ∧ s.buf.size - s.cursor ≤ 5 ∧ ∃ win b0, s.window = some win ∧
      recognizedByte b0 = true ∧ decode win = .reject (.truncated b0 (s.buf.size - s.cursor)) := by
  obtain ⟨-, hrecords, -, hfaithful, hagrees⟩ := hs
  obtain ⟨b0, hmem⟩ := State.exists_trunc_of_statusAgrees htrunc hagrees
  obtain ⟨win, p, hwin, hdec, hrec⟩ := dec_of_faithful (List.all_eq_true.1 hfaithful _ hmem) rfl
  have hok := List.all_eq_true.1 hrecords _ hmem
  simp only [OutRec.ok, Bool.and_eq_true, decide_eq_true_eq] at hok
  obtain ⟨⟨hb0, hpos⟩, hmax⟩ := hok
  exact ⟨hpos, hmax, win, b0, hwin, hb0, decode_of_dec_trunc hdec hrec⟩

/-- Settles O39: the invariant of a final state says what its cursor and its last record are. -/
theorem finalStatesAndProgress : Obligations.FinalStatesAndProgress := by
  refine ⟨fun s t hfinal => step_ne_next_of_isFinal hfinal t, fun s => exists_step, fun s hs hdone => ?done,
    fun s hs htrunc => ?trunc⟩
  case done =>
    obtain ⟨-, -, htiled, -, hagrees⟩ := hs
    obtain ⟨hend, hnone⟩ := (State.statusAgrees_done hdone).1 hagrees
    exact ⟨hend ▸ htiled, hnone⟩
  case trunc =>
    obtain ⟨hpos, hmax, win, b0, hwin, hb0, hdecode⟩ := hs.window_of_trunc htrunc
    obtain ⟨-, -, hlen, -⟩ := dec_of_truncated 0 hdecode
    exact ⟨hpos, hmax, win, b0, hwin, hlen.symm, hb0, hlen ▸ hdecode⟩

/-! ## Runs (R234 to R239) -/

/-- Settles O43: the buffer's remaining bytes are encodings and a tail, and no encoding is empty. -/
theorem runTerminates : Obligations.RunTerminates := by
  refine ⟨fun s hb => ?bounded, fun bs => ?loaded⟩
  case bounded =>
    cases hs : s.status with
    | run =>
      obtain ⟨is, tail, hwf, hparse, htail⟩ := exists_parse s.remaining
      obtain ⟨_, t, -, hends, hrun⟩ := runSteps_of_parse hb hs hwf hparse htail
      refine ⟨t, hrun _ ?_, hends.isFinal⟩
      have hlen := length_le_flatMap_encode is
      rw [← s.remaining_length, hparse, List.length_append]
      omega
    | done | trunc =>
      have hfinal : s.isFinal = true := by simp [State.isFinal, hs]
      exact ⟨s, runSteps_of_isFinal hfinal _, hfinal⟩
  case loaded =>
    obtain ⟨is, tail, hwf, rfl, htail⟩ := exists_parse bs
    obtain ⟨u, t, -, hends, hrun, -, hout⟩ := runBuffer_of_parse hwf htail
    refine ⟨t, hrun, hends.isFinal, ?_⟩
    have hlen := length_le_flatMap_encode is
    have hlog := hends.out_length_le
    rw [List.length_append]
    omega

/-- Settles O44: the step is a function, and a run that has reached a final state stays there. -/
theorem everyBufferHasOneFinalState : Obligations.EveryBufferHasOneFinalState := by
  refine ⟨fun s hb hrun => ?step, fun bs => ?run⟩
  case step =>
    obtain ⟨t, ht⟩ := exists_step hb hrun
    refine ⟨t, ht, fun u hu => ?_⟩
    cases ht.symm.trans hu
    rfl
  case run =>
    obtain ⟨t, ht, hfinal, -⟩ := runTerminates.2 bs
    exact ⟨t, hfinal, ht, fun k u hu huf => runSteps_final_unique ht hfinal hu huf⟩

/-- Settles O45: the run on encodings with nothing left after them. -/
theorem lengthConservation : Obligations.LengthConservation := by
  intro is hwf
  obtain ⟨u, t, hall, hends, hrun, hcur, hout⟩ := runBuffer_of_parse hwf (.inl rfl)
  rw [List.append_nil] at hall hrun
  obtain ⟨⟩ | ⟨h⟩ := hends
  · exact ⟨u, hall, hrun, hcur, hcur.trans (flatMap_encode_length is), hout⟩
  · cases h

/-- Settles O46: the buffer's parse, and how its tail ends the run. -/
theorem everyBufferParses : Obligations.EveryBufferParses := by
  intro bs
  obtain ⟨is, tail, hwf, rfl, htail⟩ := exists_parse bs
  obtain ⟨u, t, -, hends, hrun, hcur, hout⟩ := runBuffer_of_parse hwf htail
  refine ⟨is, tail, t, hwf, rfl, hrun, ?_⟩
  cases hends with
  | done => exact .inl ⟨rfl, rfl, by simpa using hcur, hout⟩
  | trunc h => exact .inr ⟨_, h, rfl, by simp [hcur], by simp [hout]⟩

end Sys2Proof.Machine
end

section
/-! Rules about a unit that follows a byte, and about the states a run starts from. -/

namespace Sys2Proof.Machine

theorem Memory.holdsAt_cons {m : Memory} {a : Nat} {b : Byte} {bs : List Byte} :
    m.holdsAt a (b :: bs) = true ↔ m.read a = some b ∧ m.holdsAt (a + 1) bs = true := by
  rw [holdsAt_iff, holdsAt_iff, List.length_cons, Nat.forall_lt_succ_left]
  simp [Nat.add_assoc, Nat.add_comm 1]

/-- A loaded buffer has no record yet and its cursor at its start, so only its canonical form is to be shown. -/
theorem State.load_inv (bs : List Byte) : (State.load bs).Inv := ⟨load_inBounds bs, rfl, rfl, rfl, rfl⟩

theorem State.load_nil : State.load [] = State.reset := rfl

end Sys2Proof.Machine
end

section
/-! Proofs of the exceptions family (60_exceptions.md) on resynchronization, and of the reset family
(70_reset_and_hazards.md). -/

namespace Sys2Proof.Machine

/-- Settles O32: the byte is skipped, which leaves the cursor in bounds at the encoding; the next step runs it. -/
theorem resynchronizationIsByteWise : Obligations.ResynchronizationIsByteWise := by
  intro s b0 i hb hrun hk hwf hholds
  obtain ⟨h0, hnext⟩ := Memory.holdsAt_cons.1 hholds
  obtain ⟨hstep, -⟩ := unrecognizedByteIsSkipped.2 s b0 hb hrun h0 hk
  obtain ⟨-, -, hlt⟩ := State.window_of_read hb h0
  exact ⟨_, hstep, rfl, rfl, step_of_holdsAt_encode ⟨hb.1, hlt⟩ hrun hwf hnext⟩

/-- Settles O40: the reset state is the one with the empty buffer loaded. -/
theorem resetHasInvariant : Obligations.ResetHasInvariant := by
  rw [Obligations.ResetHasInvariant, ← State.load_nil]
  exact State.load_inv []

/-- Settles O41: loading gives the canonical form of the bytes, and changes no register. -/
theorem loadedBufferHasInvariant : Obligations.LoadedBufferHasInvariant := fun bs =>
  ⟨State.load_inv bs, State.load_cursor bs, State.load_status bs, State.load_out bs, Memory.ofBytes_size bs,
    Memory.ofBytes_read bs⟩

end Sys2Proof.Machine
end
